-- ==== Sys2Proof/Config.lean ====
section
/-! DEFINITION. The limits and field widths of the block (`00_scope.md` R7). They are constants of the block, not state (R24).
`DEC_LEN_MAX` is open in the spec and has no definition here: the model sets no bound (log entry 12). -/

namespace Sys2Proof.Config

/-- `HDR_MAX`: the largest header count ENCODE accepts and the size prefix can carry (R7, R62). -/
abbrev hdrMax : Nat := 63

/-- `PAYLOAD_MAX` = 256 * 1024: the largest payload length ENCODE accepts (R7, R63). -/
abbrev payloadMax : Nat := 262144

/-- `FIELD_MAX`: the largest byte length of one header name or of one header value (R7, R64). -/
abbrev fieldMax : Nat := 65535

/-- `PLEN_FIELD_MAX` = 2^18 - 1: the largest payload length the 18-bit field can carry and DECODE can return (R7, R49). -/
abbrev plenFieldMax : Nat := 262143

/-- `ENC_OUT_MAX`: the largest length of an ENCODE output (R7, R72). -/
abbrev encOutMax : Nat := 8519809

end Sys2Proof.Config
end

