-- ==== Sys2Proof/Word.lean ====
section
/-! DEFINITION. The unit of every buffer: the byte, and the finite byte sequence (`00_scope.md` R8, `10_state.md` R15). -/

namespace Sys2Proof

/-- A byte: eight bits, bit 0 the least significant (R8, R27). -/
abbrev Byte := BitVec 8

/-- `Bytes`: a finite sequence of bytes, possibly empty; index 0 is the first byte emitted or received (R8, R15). -/
abbrev Bytes := List Byte

end Sys2Proof
end

