-- ==== Sys2Proof/Syntax.lean ====
section
/-! DEFINITION. The values that cross the block's boundary (`10_state.md` R13 to R18), the errors and the status
(`60_exceptions.md` R125, R128), and the instructions: one constructor per row of `spec/opcode_table.json`, the two
operations (`30_encoding.md` R57) and the nine wire formats (R40 to R50, R128). -/

namespace Sys2Proof

/-- A header entry: a pair of byte strings, either of which may be empty (R14). -/
structure Entry where
  name  : Bytes
  value : Bytes
  deriving DecidableEq, Repr

/-- A Message: an ordered list of header entries and a payload (R13). -/
structure Message where
  headers : List Entry
  payload : Bytes
  deriving DecidableEq, Repr

/-- The five errors, one constructor each (R125). -/
inductive CodecError where
  /-- `LimitExceeded(headers)`, raised by ENCODE (R126). -/
  | limitHeaders
  /-- `LimitExceeded(payload)`, raised by ENCODE (R127). -/
  | limitPayload
  /-- `LimitExceeded(field)`, raised by ENCODE (R129). -/
  | limitField
  /-- `TruncatedInput`, raised by DECODE (R130). -/
  | truncatedInput
  /-- `Malformed`, raised by DECODE (R132). -/
  | malformed
  deriving DecidableEq, Repr

/-- The result of an operation: its output value, or an error and no value (R8, R131). -/
inductive Result (α : Type) where
  | ok  (v : α)
  | err (e : CodecError)
  deriving DecidableEq, Repr

/-- The kind of a result (R23). -/
inductive Status where
  | ok
  | error (e : CodecError)
  deriving DecidableEq, Repr

/-- The two agents of the block (R12). -/
inductive Agent where
  | enc
  | dec
  deriving DecidableEq, Repr

/-- The wire formats of the opcode table. -/
inductive Format where
  | headerEntry
  | nameLen
  | name
  | valueLen
  | value
  | sizePrefix
  | payload
  | message
  | status
  deriving DecidableEq, Repr

/-- Where bytes stand, which is what tells the decoder what they are: at the operation tag of a request (R57), or at
a field that a unit transfers. A wire field is recognised by its position, never by a pattern (R53, R55). -/
inductive Position where
  | op
  | field (u : Agent) (f : Format)
  deriving DecidableEq, Repr

/-- The instructions: one constructor per row of the opcode table. The operand of ENCODE and DECODE stands at the
unit's port (`State.encPort`, `State.decPort`). A format row names the unit that transfers the field, the ENC unit by
writing it, the DEC unit by reading it, and carries the field's content (log entry 2). -/
inductive Instr where
  /-- `ENCODE` (R69). -/
  | encode
  /-- `DECODE` (R93). -/
  | decode
  /-- `HEADER_ENTRY` (R41). -/
  | headerEntry (u : Agent) (name value : Bytes)
  /-- `NAME_LEN` (R42). -/
  | nameLen (u : Agent) (n : BitVec 16)
  /-- `NAME` (R43). -/
  | name (u : Agent) (bytes : Bytes)
  /-- `VALUE_LEN` (R44). -/
  | valueLen (u : Agent) (m : BitVec 16)
  /-- `VALUE` (R44). -/
  | value (u : Agent) (bytes : Bytes)
  /-- `SIZE_PREFIX` (R45): `CNT` and `PLEN`. -/
  | sizePrefix (u : Agent) (cnt : BitVec 6) (plen : BitVec 18)
  /-- `PAYLOAD` (R50). -/
  | payload (u : Agent) (bytes : Bytes)
  /-- `MESSAGE` (R40): the whole buffer of a message. -/
  | message (u : Agent) (msg : Message)
  /-- `STATUS` (R128): the result status with which a unit ends its operation. -/
  | status (u : Agent) (st : Status)
  deriving DecidableEq, Repr

/-- The position at which an instruction's bytes stand. -/
def Instr.position : Instr → Position
  | .encode => .op
  | .decode => .op
  | .headerEntry u _ _ => .field u .headerEntry
  | .nameLen u _ => .field u .nameLen
  | .name u _ => .field u .name
  | .valueLen u _ => .field u .valueLen
  | .value u _ => .field u .value
  | .sizePrefix u _ _ => .field u .sizePrefix
  | .payload u _ => .field u .payload
  | .message u _ => .field u .message
  | .status u _ => .field u .status

/-- The number of bytes of a header entry, `4 + N + M` (R41). -/
def Entry.size (e : Entry) : Nat := 4 + e.name.length + e.value.length

/-- The number of bytes of a list of header entries back to back: `S_k` of R33 for the first `k` entries. -/
def entriesSize : List Entry → Nat
  | [] => 0
  | e :: es => e.size + entriesSize es

end Sys2Proof
end

