-- ==== Sys2Proof/WellFormed.lean ====
section
/-! DEFINITION. The message invariant and the limits (`10_state.md` R16), false stops and ambiguous messages
(`45_codec_laws.md` R112), and which instructions are well formed: every field fits the bits the wire gives it. -/

namespace Sys2Proof

/-- A header entry whose name and value each fit a 16-bit length (third clause of R16). -/
abbrev Entry.inLimits (e : Entry) : Prop :=
  e.name.length ≤ Config.fieldMax ∧ e.value.length ≤ Config.fieldMax

/-- `Limits(m)`: the first three clauses of the message invariant, the ones ENCODE checks (R16). -/
abbrev Message.limits (m : Message) : Prop :=
  m.headers.length ≤ Config.hdrMax ∧ m.payload.length ≤ Config.payloadMax ∧ ∀ e ∈ m.headers, e.inLimits

/-- `Valid(m)`: the limits, and names pairwise different (R16). No unit checks the last clause (R77, R97). -/
abbrev Message.valid (m : Message) : Prop :=
  m.limits ∧ (m.headers.map Entry.name).Nodup

/-- The third byte `y2` of an entry as a number: the first name byte, or the high byte of the value length where the name is empty (R112). -/
def Entry.thirdByte (e : Entry) : Nat :=
  match e.name with
  | [] => e.value.length >>> 8
  | y :: _ => y.toNat

/-- The terminator test at the start of entry `e`, `k` entries before it and `R` bytes unread, written out for an encoded message (R112). -/
abbrev Entry.falseStop (e : Entry) (k R : Nat) : Prop :=
  e.name.length >>> 10 = k ∧ (e.name.length % 1024) * 256 + e.thirdByte = R - 3

/-- `FS(m, k)`: the boundary `(S_k, k)` of the encoding of `m` is a false stop (R112); `R_k` bytes are unread there. -/
def Message.falseStopAt (m : Message) (k : Nat) : Prop :=
  ∃ e, m.headers[k]? = some e ∧ e.falseStop k (entriesSize (m.headers.drop k) + 3 + m.payload.length)

/-- No entry of the list, the first of them preceded by `k` entries and followed by `tail` bytes after the list, is a false stop. -/
def noFalseStop (k tail : Nat) : List Entry → Bool
  | [] => true
  | e :: es => !decide (e.falseStop k (entriesSize (e :: es) + tail)) && noFalseStop (k + 1) tail es

/-- `m` is ambiguous: `FS(m, k)` holds for some `k < c` (R112). -/
def Message.ambiguous (m : Message) : Bool :=
  !noFalseStop 0 (3 + m.payload.length) m.headers

/-- The messages that come back from their own encoding (R110), which are the ones DECODE returns (R120). -/
abbrev Message.decodable (m : Message) : Prop :=
  m.limits ∧ m.payload.length ≤ Config.plenFieldMax ∧ m.ambiguous = false

/-- Which unit's results a status can be: ENCODE produces `OK` and the three limit errors, DECODE `OK`, `TruncatedInput` and `Malformed` (R128). -/
def Status.belongsTo : Status → Agent → Bool
  | .ok, _ => true
  | .error .limitHeaders, u => u == .enc
  | .error .limitPayload, u => u == .enc
  | .error .limitField, u => u == .enc
  | .error .truncatedInput, u => u == .dec
  | .error .malformed, u => u == .dec

/-- The largest payload a unit transfers: 262144 bytes written, 262143 recoverable (table row PAYLOAD; R63, R98). -/
def Agent.payloadMax : Agent → Nat
  | .enc => Config.payloadMax
  | .dec => Config.plenFieldMax

/-- A well-formed instruction: each field fits the wire format of its row. A message that DECODE reads, or that is
given as wire bytes, is one that its bytes stand for (R110, R120). -/
def Instr.wellFormed : Instr → Bool
  | .encode => true
  | .decode => true
  | .headerEntry _ nm val => decide (nm.length ≤ Config.fieldMax ∧ val.length ≤ Config.fieldMax)
  | .nameLen _ _ => true
  | .name _ bytes => decide (bytes.length ≤ Config.fieldMax)
  | .valueLen _ _ => true
  | .value _ bytes => decide (bytes.length ≤ Config.fieldMax)
  | .sizePrefix _ _ _ => true
  | .payload u bytes => decide (bytes.length ≤ u.payloadMax)
  | .message _ msg => decide msg.decodable
  | .status u st => st.belongsTo u

end Sys2Proof
end

