-- ==== Sys2Proof/Decode.lean ====
section
/-! DEFINITION. The wire format in both directions: the access primitive and the number formats (`20_memory.md` R26,
R29), the size prefix (`30_encoding.md` R45 to R49), the scan of a buffer (`41_decoder.md` R82 to R93), the decoder of
an instruction from the bytes at a position, and the encoder of an instruction (R40 to R50, R57, R128). -/

namespace Sys2Proof

/-! ### Numbers and reads -/

/-- `be16(n)`: the two bytes of `n`, most significant first (R8, R26, R42). -/
def be16 (n : Nat) : Bytes := [BitVec.ofNat 8 (n >>> 8), BitVec.ofNat 8 (n &&& 0xFF)]

/-- `MemRead(addr, n)`: the `n` bytes of the buffer from index `addr`, defined only inside the buffer (R29). -/
def memRead (b : Bytes) (addr n : Nat) : Option Bytes :=
  if addr + n ≤ b.length then some ((b.drop addr).take n) else none

/-- `rd16(b, i)`: two bytes read as a big-endian number (R8, R26), defined only inside the buffer. -/
def rd16 (b : Bytes) (i : Nat) : Option Nat :=
  match memRead b i 2 with
  | some [x, y] => some ((x.toNat <<< 8) ||| y.toNat)
  | _ => none

/-! ### The size prefix -/

/-- The three bytes ENCODE composes for header count `c` and payload length `p` (R47, R48, R67). -/
def composePrefix (c p : Nat) : Bytes :=
  [BitVec.ofNat 8 ((c <<< 2) ||| (p >>> 16)), BitVec.ofNat 8 ((p >>> 8) &&& 0xFF), BitVec.ofNat 8 (p &&& 0xFF)]

/-- `CNT` of three bytes read as a size prefix: bits 7 to 2 of the first (R49). -/
def prefixCnt (y0 : Byte) : Nat := y0.toNat >>> 2

/-- `PLEN` of three bytes read as a size prefix (R49). -/
def prefixPlen (y0 y1 y2 : Byte) : Nat := ((y0.toNat &&& 3) <<< 16) ||| (y1.toNat <<< 8) ||| y2.toNat

/-- The terminator test `T`: the count is the number of entries parsed and the length is what remains after the three bytes (R85). -/
abbrev terminator (cnt plen k R : Nat) : Prop := cnt = k ∧ plen = R - 3

/-- Which error DECODE raises when 63 entries are parsed and the next three bytes are not a consistent size prefix (R87). -/
def cutOffError (cnt plen R : Nat) : CodecError :=
  if cnt = Config.hdrMax ∧ plen > R - 3 then .truncatedInput else .malformed

/-! ### The scan -/

/-- One header entry parsed at `pos`; nothing where a field would run past the end of the buffer (R88 to R91). -/
def parseEntry (b : Bytes) (pos : Nat) : Option Entry :=
  let R := b.length - pos
  match rd16 b pos with
  | none => none
  | some N =>
    if 2 + N + 2 > R then none
    else
      match memRead b (pos + 2) N, rd16 b (pos + 2 + N) with
      | some name, some M =>
        if 4 + N + M > R then none
        else
          match memRead b (pos + 4 + N) M with
          | some value => some ⟨name, value⟩
          | none => none
      | _, _ => none

/-- What DECODE finds at a boundary (R83). -/
inductive Visit where
  /-- The terminator test holds: success, with this payload (R86). -/
  | accept (payload : Bytes)
  /-- The operation fails (R84, R87, R89, R91). -/
  | fail (e : CodecError)
  /-- One more header entry (R92). -/
  | entry (e : Entry)
  deriving DecidableEq, Repr

/-- What DECODE does at the boundary `(pos, k)`: too few bytes, then the terminator test, then the cut-off at 63, then
one header entry; the first that applies decides (R83, R96). -/
def visit (b : Bytes) (pos k : Nat) : Visit :=
  let R := b.length - pos
  match memRead b pos 3 with
  | some [y0, y1, y2] =>
    if terminator (prefixCnt y0) (prefixPlen y0 y1 y2) k R then .accept (b.drop (pos + 3))
    else if k = Config.hdrMax then .fail (cutOffError (prefixCnt y0) (prefixPlen y0 y1 y2) R)
    else
      match parseEntry b pos with
      | some e => .entry e
      | none => .fail .truncatedInput
  | _ => .fail .truncatedInput

/-- The loop of DECODE from a boundary, with the entries parsed so far (`k` of them, R22), making at most `passes`
passes. From `k` entries `64 - k` passes are enough (R101), so the first line is never reached by `decodeBytes`. -/
def decodeFrom (b : Bytes) : (passes pos : Nat) → (hdrs : List Entry) → Result Message
  | 0, _, _ => .err .malformed
  | passes + 1, pos, hdrs =>
    match visit b pos hdrs.length with
    | .accept payload => .ok ⟨hdrs, payload⟩
    | .fail e => .err e
    | .entry e => decodeFrom b passes (pos + e.size) (hdrs ++ [e])

/-- `DECODE(b)` as a function of the buffer (R93). -/
def decodeBytes (b : Bytes) : Result Message := decodeFrom b (Config.hdrMax + 1) 0 []

/-! ### The encoder: the wire bytes of each format -/

/-- The bytes of one header entry (R41, R66). -/
def entryBytes (e : Entry) : Bytes :=
  be16 e.name.length ++ e.name ++ be16 e.value.length ++ e.value

/-- The header block: the entries back to back, in list order (R40, R65). -/
def entriesBytes : List Entry → Bytes
  | [] => []
  | e :: es => entryBytes e ++ entriesBytes es

/-- The whole buffer of a message: header block, size prefix, payload, and nothing else (R40, R69 closed form). -/
def messageBytes (m : Message) : Bytes :=
  entriesBytes m.headers ++ composePrefix m.headers.length m.payload.length ++ m.payload

/-- The 3-bit code `ST` of a status (R128). -/
def Status.code : Status → Nat
  | .ok => 0
  | .error .limitHeaders => 1
  | .error .limitPayload => 2
  | .error .limitField => 3
  | .error .truncatedInput => 4
  | .error .malformed => 5

/-- The status of a code; 6 and 7 are never produced (R128). -/
def Status.ofCode : Nat → Option Status
  | 0 => some .ok
  | 1 => some (.error .limitHeaders)
  | 2 => some (.error .limitPayload)
  | 3 => some (.error .limitField)
  | 4 => some (.error .truncatedInput)
  | 5 => some (.error .malformed)
  | _ => none

/-- The words of an instruction: the tag of an operation (R57), the wire bytes of a format row (R40 to R50), the code of a status (R128). -/
def encode : Instr → Bytes
  | .encode => [0x00]
  | .decode => [0x01]
  | .headerEntry _ name value => entryBytes ⟨name, value⟩
  | .nameLen _ n => be16 n.toNat
  | .name _ bytes => bytes
  | .valueLen _ m => be16 m.toNat
  | .value _ bytes => bytes
  | .sizePrefix _ cnt plen => composePrefix cnt.toNat plen.toNat
  | .payload _ bytes => bytes
  | .message _ msg => messageBytes msg
  | .status _ st => [BitVec.ofNat 8 st.code]

/-! ### The decoder -/

/-- Why bytes are no instruction at a position. -/
inductive Reject where
  /-- Fewer bytes than the field needs. -/
  | tooShort
  /-- More bytes than a name, a value or a payload can have (R42, R44, R49, R63). -/
  | tooLong
  /-- The bytes are no message's encoding; the error DECODE gives them (R93). -/
  | notAMessage (e : CodecError)
  /-- A status code that is never produced (R128). -/
  | unusedStatus
  /-- A status of the other unit's results (R128). -/
  | statusOfOtherUnit
  deriving DecidableEq, Repr

/-- What the decoder answers: an instruction and the bytes after it, or a reason. -/
inductive Decoded where
  | instr (i : Instr) (rest : Bytes)
  | rejected (r : Reject)
  deriving DecidableEq, Repr

/-- The operation tag: bit 0 of the byte is `OP`, 0 for ENCODE and 1 for DECODE (R57). The tag is one bit: the other
bits of the byte that carries it are not examined, as the table's mask says (log entry 1). -/
def decodeOp : Bytes → Decoded
  | [] => .rejected .tooShort
  | t :: rest => if t.getLsbD 0 then .instr .decode rest else .instr .encode rest

/-- A wire field of the given format at the front of the bytes. `NAME`, `VALUE`, `PAYLOAD` and `MESSAGE` have no end
mark (R43, R50, R53): all the bytes given are the field. -/
def decodeField (u : Agent) (f : Format) (bs : Bytes) : Decoded :=
  match f with
  | .headerEntry =>
    match parseEntry bs 0 with
    | some e => .instr (.headerEntry u e.name e.value) (bs.drop e.size)
    | none => .rejected .tooShort
  | .nameLen =>
    match rd16 bs 0 with
    | some n => .instr (.nameLen u (BitVec.ofNat 16 n)) (bs.drop 2)
    | none => .rejected .tooShort
  | .name => if bs.length ≤ Config.fieldMax then .instr (.name u bs) [] else .rejected .tooLong
  | .valueLen =>
    match rd16 bs 0 with
    | some m => .instr (.valueLen u (BitVec.ofNat 16 m)) (bs.drop 2)
    | none => .rejected .tooShort
  | .value => if bs.length ≤ Config.fieldMax then .instr (.value u bs) [] else .rejected .tooLong
  | .sizePrefix =>
    match bs with
    | y0 :: y1 :: y2 :: rest =>
      .instr (.sizePrefix u (BitVec.ofNat 6 (prefixCnt y0)) (BitVec.ofNat 18 (prefixPlen y0 y1 y2))) rest
    | _ => .rejected .tooShort
  | .payload => if bs.length ≤ u.payloadMax then .instr (.payload u bs) [] else .rejected .tooLong
  | .message =>
    match decodeBytes bs with
    | .ok m => .instr (.message u m) []
    | .err e => .rejected (.notAMessage e)
  | .status =>
    match bs with
    | [] => .rejected .tooShort
    | x :: rest =>
      match Status.ofCode (x.toNat % 8) with
      | none => .rejected .unusedStatus
      | some st => if st.belongsTo u then .instr (.status u st) rest else .rejected .statusOfOtherUnit

/-- The instruction in the bytes that stand at a position. -/
def decode (p : Position) (bs : Bytes) : Decoded :=
  match p with
  | .op => decodeOp bs
  | .field u f => decodeField u f bs

/-- The instruction, where the bytes hold exactly one. -/
def Decoded.exact : Decoded → Option Instr
  | .instr i [] => some i
  | _ => none

/-- The low `n` bytes of a number, most significant first: the order of every multi-byte field (R26). -/
def wordBytes : (n w : Nat) → Bytes
  | 0, _ => []
  | n + 1, w => BitVec.ofNat 8 (w >>> (8 * n)) :: wordBytes n w

/-- The position at which a word of the opcode table is read, by its number of bits: the tag of a request, or a
16-bit length, a 24-bit size prefix or a 32-bit header entry (of empty name and value) at the DEC unit (log entry 16). -/
def tablePosition : Nat → Option Position
  | 8 => some .op
  | 16 => some (.field .dec .nameLen)
  | 24 => some (.field .dec .sizePrefix)
  | 32 => some (.field .dec .headerEntry)
  | _ => none

/-- The instruction the decoder reads from a word of the opcode table. -/
def decodeTableWord (nbits w : Nat) : Option Instr :=
  match tablePosition nbits with
  | some p => (decode p (wordBytes (nbits / 8) w)).exact
  | none => none

end Sys2Proof
end

