-- ==== Sys2Proof/Machine/State.lean ====
section
/-! DEFINITION. The state of the machine as plain data: the activity and working variables of the two units
(`10_state.md` R19 to R24), and the host's side of the boundary (R17, R18, `30_encoding.md` R58); the reasons a step can
stop; the state after reset (`70_reset_and_hazards.md` R145). -/

namespace Sys2Proof.Machine

/-! ### The units -/

/-- Which field the ENC unit emits next (R65, R66). At a boundary that is the next entry's name length, or the size
prefix when every entry is out. The model's own field (log entry 2). -/
inductive EncDue where
  | boundary
  | name
  | valueLen
  | value
  | payload
  | status
  deriving DecidableEq, Repr

/-- Which field the DEC unit reads next (R83). At a boundary that is the candidate for the size prefix. The model's
own field (log entry 2). -/
inductive DecDue where
  | boundary
  | nameLen
  | name
  | valueLen
  | value
  | payload
  | status
  deriving DecidableEq, Repr

/-- The working variables of an ENCODE in progress. -/
structure EncVars where
  /-- The operand `m`, one fixed value throughout (R17, R151). -/
  operand : Message
  /-- The loop index of R69: how many entries are emitted. -/
  i       : Nat
  /-- The output under construction (R19). -/
  out     : Bytes
  due     : EncDue
  deriving DecidableEq, Repr

/-- The working variables of a DECODE in progress. -/
structure DecVars where
  /-- The operand `b`; its length is `L` (R18, R81). -/
  buffer  : Bytes
  /-- The byte cursor (R20). -/
  pos     : Nat
  /-- The number of entries parsed (R21). -/
  k       : Nat
  /-- The entries parsed (R22). -/
  hdrs    : List Entry
  /-- `N` of the entry being parsed (R88). -/
  n       : BitVec 16
  /-- The name of the entry being parsed (R89). -/
  name    : Bytes
  /-- `M` of the entry being parsed (R90). -/
  m       : BitVec 16
  /-- The payload, read after the terminator test held (R86). -/
  payload : Bytes
  due     : DecDue
  deriving DecidableEq, Repr

/-! ### The host's side -/

/-- How much of an operation one transfer carries: nothing in the rules depends on how an implementation splits the
accesses (R31). -/
inductive Grain where
  /-- One field. -/
  | field
  /-- A whole header entry where one is due, else one field. -/
  | entry
  /-- The whole message where the operation has just begun, else as `entry`. -/
  | whole
  deriving DecidableEq, Repr

/-- A byte string as a host's line writes it (R58, with the notation of R8): a literal, `r.val` of an ENCODE, a part of
`r.val` of a DECODE, a concatenation, or `s[a..b)`. -/
inductive BytesTerm where
  | lit (b : Bytes)
  /-- `r.val`, `r` result `j` of the ENC unit. -/
  | encoded (j : Nat)
  /-- `r.val.payload`, `r` result `j` of the DEC unit. -/
  | payloadOf (j : Nat)
  /-- `r.val.headers[i].name`, `r` result `j` of the DEC unit. -/
  | nameOf (j i : Nat)
  /-- `r.val.headers[i].value`, `r` result `j` of the DEC unit. -/
  | valueOf (j i : Nat)
  /-- `s ++ t`. -/
  | append (s t : BytesTerm)
  /-- `s[a..b)`. -/
  | slice (s : BytesTerm) (a b : Nat)
  deriving DecidableEq, Repr

/-- A part of a header list as a host's line writes it: one entry, or all the entries of `r.val`, `r` result `j` of the DEC unit. -/
inductive HeaderTerm where
  | entry (name value : BytesTerm)
  | headersOf (j : Nat)
  deriving DecidableEq, Repr

/-- The Message a host's line gives to ENCODE (R58): what the port holds, a literal, `r.val` of a DECODE, or a Message
written from its parts, in which values of earlier results may stand. -/
inductive MsgOperand where
  | held
  | lit (m : Message)
  | decoded (j : Nat)
  | build (headers : List HeaderTerm) (payload : BytesTerm)
  deriving DecidableEq, Repr

/-- The buffer a host's line gives to DECODE (R58): what the port holds, or a byte string. -/
inductive BufOperand where
  | held
  | term (t : BytesTerm)
  deriving DecidableEq, Repr

/-- What the host presents at the two ports with an event. -/
structure Operands where
  msg : MsgOperand
  buf : BufOperand
  deriving DecidableEq, Repr

/-- What the host can do to the block (log entry 5). -/
inductive HostEvent where
  /-- A request for a whole operation: the bytes of its tag, and the operands (R57, R58). -/
  | request (code : Bytes) (ops : Operands)
  /-- An operation of unit `u` begins, to be carried out transfer by transfer (log entry 2). -/
  | start (u : Agent) (ops : Operands)
  /-- Unit `u` carries out its next transfer. -/
  | tick (u : Agent) (g : Grain)
  /-- Reset is asserted (R146). -/
  | reset
  deriving DecidableEq, Repr

/-! ### The machine -/

/-- The state. The first two fields are the block; the others are the host's side of the boundary. -/
structure State where
  /-- The ENC unit: idle, or an operation in progress (R24, R145). -/
  enc        : Option EncVars
  /-- The DEC unit: idle, or an operation in progress (R24, R145). -/
  dec        : Option DecVars
  /-- The Message at the ENC unit's port (R17). -/
  encPort    : Message
  /-- The buffer at the DEC unit's port (R18). -/
  decPort    : Bytes
  /-- The host's events not yet taken, oldest first. -/
  pending    : List HostEvent
  /-- The results of the ENC unit, oldest first (R17, R23). -/
  encResults : List (Result Bytes)
  /-- The results of the DEC unit, oldest first (R18, R23). -/
  decResults : List (Result Message)
  deriving DecidableEq, Repr

/-- The machine stops with a fault: never. The five errors are ordinary results (R125, R139, D18), so this type has no
value; nothing raises it (log entry 19). -/
inductive Fault where
  deriving DecidableEq, Repr

/-- Why a step gives no meaning. Each is safe: the machine stops where the spec defines nothing. -/
inductive Refusal where
  /-- Raised by `exec` for an instruction that has no meaning yet; safe. -/
  | notModelled (mnemonic : String)
  /-- Raised by `step` when the bytes of a request are no instruction, which is only when there are none; safe. -/
  | undecodable (r : Reject)
  /-- Raised by `step` when a host's line names the value of a result that is not there or is an error, or a part such a value does not have (R58, R131, R8); safe (log entry 11). -/
  | noOperandValue
  /-- Raised by STATUS with a status the unit never produces (R128); safe (log entry 15). -/
  | statusOfOtherUnit
  deriving DecidableEq, Repr

/-- The machine right after reset: both units idle, no operation in progress, no result pending (R24, R145). The
host's side is empty (log entry 5). -/
def State.reset : State where
  enc := none
  dec := none
  encPort := ⟨[], []⟩
  decPort := []
  pending := []
  encResults := []
  decResults := []

end Sys2Proof.Machine
end

