-- ==== Sys2Proof/Machine/Flags.lean ====
section
/-! DEFINITION. The block has no flags (`10_state.md` R11). The only status is the kind of a result (R23) and its
numeric code (`60_exceptions.md` R128). -/

namespace Sys2Proof.Machine

/-- The status of a result (R23). -/
def resultStatus {α : Type} : Result α → Status
  | .ok _ => .ok
  | .err e => .error e

/-- The 3-bit code `ST` delivered with a result (R128). -/
def resultCode {α : Type} (r : Result α) : BitVec 3 := BitVec.ofNat 3 (resultStatus r).code

end Sys2Proof.Machine
end

