-- ==== Sys2Proof/Machine/Operands.lean ====
section
/-! DEFINITION. Operands: the checks ENCODE makes on its Message (`40_encoder.md` R61 to R64), and how the operands a
host's line names reach the ports (`30_encoding.md` R58). -/

namespace Sys2Proof.Machine

/-- The field check: some name or some value is longer than 65535 bytes (R64). -/
def fieldOverLimit (e : Entry) : Bool :=
  decide (e.name.length > Config.fieldMax) || decide (e.value.length > Config.fieldMax)

/-- The checks of ENCODE, in the order headers, payload, field; the first that fails decides (R61 to R64, R135). -/
def limitError (m : Message) : Option CodecError :=
  if m.headers.length > Config.hdrMax then some .limitHeaders
  else if m.payload.length > Config.payloadMax then some .limitPayload
  else if m.headers.any fieldOverLimit then some .limitField
  else none

/-- The value inside an OK result; an error has none (R131). -/
def resultValue {α : Type} (log : List (Result α)) (j : Nat) : Option α :=
  match log[j]? with
  | some (.ok v) => some v
  | _ => none

/-- Entry `i` of the Message inside an OK result of the DEC unit. -/
def State.resultEntry (s : State) (j i : Nat) : Option Entry :=
  match resultValue s.decResults j with
  | some m => m.headers[i]?
  | none => none

/-- The byte string a line writes (R58, R8); nothing where a value or a part it names does not exist. -/
def State.bytesOf (s : State) : BytesTerm → Option Bytes
  | .lit b => some b
  | .encoded j => resultValue s.encResults j
  | .payloadOf j => (resultValue s.decResults j).map Message.payload
  | .nameOf j i => (s.resultEntry j i).map Entry.name
  | .valueOf j i => (s.resultEntry j i).map Entry.value
  | .append x y =>
    match s.bytesOf x, s.bytesOf y with
    | some u, some v => some (u ++ v)
    | _, _ => none
  | .slice x a b =>
    match s.bytesOf x with
    | some bx => if a ≤ b ∧ b ≤ bx.length then some ((bx.drop a).take (b - a)) else none
    | none => none

/-- The header list a line writes (R58). -/
def State.headersOf (s : State) : List HeaderTerm → Option (List Entry)
  | [] => some []
  | .entry nm val :: hs =>
    match s.bytesOf nm, s.bytesOf val, s.headersOf hs with
    | some n, some v, some es => some (⟨n, v⟩ :: es)
    | _, _, _ => none
  | .headersOf j :: hs =>
    match resultValue s.decResults j, s.headersOf hs with
    | some m, some es => some (m.headers ++ es)
    | _, _ => none

/-- The Message a line gives to ENCODE (R58). -/
def State.msgOperand (s : State) : MsgOperand → Option Message
  | .held => some s.encPort
  | .lit m => some m
  | .decoded j => resultValue s.decResults j
  | .build hs p =>
    match s.headersOf hs, s.bytesOf p with
    | some es, some payload => some ⟨es, payload⟩
    | _, _ => none

/-- The buffer a line gives to DECODE (R58). -/
def State.bufOperand (s : State) : BufOperand → Option Bytes
  | .held => some s.decPort
  | .term t => s.bytesOf t

/-- The host presents the operands of a line at the two ports; nothing where a named value does not exist. -/
def State.present (s : State) (ops : Operands) : Option State :=
  match s.msgOperand ops.msg, s.bufOperand ops.buf with
  | some m, some b => some { s with encPort := m, decPort := b }
  | _, _ => none

end Sys2Proof.Machine
end

