-- ==== Sys2Proof/Machine/Ops.lean ====
section
/-! DEFINITION. The operations every meaning is built from: the buffer as address and byte pairs (`20_memory.md` R25),
`emit` (R30), the beginning and the end of an operation (`10_state.md` R12, R24), the presenting of a line's operands
(`30_encoding.md` R58), `raise` (`60_exceptions.md` R131), reset (`70_reset_and_hazards.md` R146), and one transfer of a unit. -/

namespace Sys2Proof.Machine

/-! ### The buffer as memory -/

/-- A buffer as address and byte pairs: addresses 0, 1, ..., len - 1 (R25; log entry 14). -/
def Memory.cellsFrom : Nat → Bytes → List Host.Cell
  | _, [] => []
  | a, x :: xs => (a, x) :: Memory.cellsFrom (a + 1) xs

/-- The whole buffer, from address 0. -/
def Memory.cells (b : Bytes) : List Host.Cell := Memory.cellsFrom 0 b

/-- The canonical form of a memory: addresses strictly rising. No address outside the list exists (R29). -/
def Memory.wf : List Host.Cell → Bool
  | [] => true
  | [_] => true
  | c :: d :: rest => decide (c.1 < d.1) && Memory.wf (d :: rest)

/-- `emit(v)`: the write appends at the current end (R30). -/
def emit (out v : Bytes) : Bytes := out ++ v

/-! ### The beginning and the end of an operation -/

/-- ENCODE as a function of its operand: the checks, then every byte (R69). -/
def encodeMessage (m : Message) : Result Bytes :=
  match limitError m with
  | some e => .err e
  | none =>
    .ok (emit (emit (emit [] (entriesBytes m.headers)) (composePrefix m.headers.length m.payload.length)) m.payload)

/-- The start values of an ENCODE (R19, R24, R69). -/
def EncVars.start (m : Message) : EncVars where
  operand := m
  i := 0
  out := []
  due := .boundary

/-- The start values of a DECODE (R20 to R22, R24, R93). -/
def DecVars.start (b : Bytes) : DecVars where
  buffer := b
  pos := 0
  k := 0
  hdrs := []
  n := 0
  name := []
  m := 0
  payload := []
  due := .boundary

/-- The ENC unit ends its operation: the result is delivered and the unit is idle (R23, R138). -/
def State.deliverEnc (s : State) (r : Result Bytes) : State :=
  { s with enc := none, encResults := s.encResults ++ [r] }

/-- The DEC unit ends its operation: the result is delivered and the unit is idle (R23, R138). -/
def State.deliverDec (s : State) (r : Result Message) : State :=
  { s with dec := none, decResults := s.decResults ++ [r] }

/-- A busy unit ends the operation in progress: it delivers the result, which is the function of the operand (R10, R35).
A unit takes its next operand only after this (R12; log entry 8); an idle unit has nothing to end. -/
def State.finish (s : State) : Agent → State
  | .enc =>
    match s.enc with
    | none => s
    | some v => s.deliverEnc (encodeMessage v.operand)
  | .dec =>
    match s.dec with
    | none => s
    | some v => s.deliverDec (decodeBytes v.buffer)

/-- The host presents the operands of a line. A line that names the result of an operation in progress is presented when
the units have ended their operations, since the host runs its lines in order (R58); nothing where a named value does
not exist even then. -/
def State.presentLine (s : State) (ops : Operands) : Option State :=
  match s.present ops with
  | some t => some t
  | none => ((s.finish .enc).finish .dec).present ops

/-- A unit takes the operand at its port and an operation begins, with its start values (R24), after the previous one has ended (R12). -/
def State.begin (s : State) : Agent → State
  | .enc => { s.finish .enc with enc := some (EncVars.start s.encPort) }
  | .dec => { s.finish .dec with dec := some (DecVars.start s.decPort) }

/-- Reset: both units are idle, an operation in progress is abandoned without a result; the host's side is untouched (R145, R146). -/
def State.assertReset (s : State) : State := { s with enc := none, dec := none }

/-! ### One transfer of a unit -/

/-- What a transfer leaves: the operation goes on with new working variables, or ends with its result. -/
inductive Move (σ α : Type) where
  | go   (v : σ)
  | done (r : Result α)
  deriving DecidableEq, Repr

/-- `raise e`: the operation ends at once; its result is the error and no value (R131, R133). -/
def raise {σ α : Type} (e : CodecError) : Move σ α := .done (.err e)

/-- The ENC unit carries out a transfer; an idle unit has no operation in progress and nothing happens (log entry 4). -/
def State.moveEnc (s : State) (f : EncVars → Move EncVars Bytes) : State :=
  match s.enc with
  | none => s
  | some v =>
    match f v with
    | .go v' => { s with enc := some v' }
    | .done r => s.deliverEnc r

/-- The DEC unit carries out a transfer; an idle unit has no operation in progress and nothing happens (log entry 4). -/
def State.moveDec (s : State) (f : DecVars → Move DecVars Message) : State :=
  match s.dec with
  | none => s
  | some v =>
    match f v with
    | .go v' => { s with dec := some v' }
    | .done r => s.deliverDec r

/-! ### The pieces of a transfer -/

/-- `R`: the number of unread bytes (R82). -/
abbrev DecVars.unread (v : DecVars) : Nat := v.buffer.length - v.pos

/-- Accepting an entry (R92): append it, move the cursor by `4 + N + M`, count it. -/
def DecVars.accept (v : DecVars) (e : Entry) (n m : Nat) : DecVars :=
  { v with hdrs := v.hdrs ++ [e], pos := v.pos + 4 + n + m, k := v.k + 1, n := 0, name := [], m := 0, due := .boundary }

end Sys2Proof.Machine
end

