-- ==== Sys2Proof/Machine/HeaderFields.lean ====
section
/-! DEFINITION. The format rows of a header entry: HEADER_ENTRY and its four fields (`30_encoding.md` R41 to R44). The
ENC unit writes them (`40_encoder.md` R66), the DEC unit reads them (`41_decoder.md` R88 to R92). -/

namespace Sys2Proof.Machine

/-- The ENC unit emits a whole entry (R66), within the limits (R62, R64). -/
def emitHeaderEntry (e : Entry) (v : EncVars) : Move EncVars Bytes :=
  if v.i ≥ Config.hdrMax then raise .limitHeaders
  else if fieldOverLimit e then raise .limitField
  else .go { v with out := emit v.out (entryBytes e), i := v.i + 1, due := .boundary }

/-- The DEC unit has read a whole entry: the two overrun checks, then the entry is accepted (R89, R91, R92). -/
def readHeaderEntry (e : Entry) (v : DecVars) : Move DecVars Message :=
  if 2 + e.name.length + 2 > v.unread then raise .truncatedInput
  else if 4 + e.name.length + e.value.length > v.unread then raise .truncatedInput
  else .go (v.accept e e.name.length e.value.length)

/-- `HEADER_ENTRY` (R41). -/
def execHeaderEntry (u : Agent) (name value : Bytes) (s : State) : Host.Outcome State Fault Refusal :=
  match u with
  | .enc => .next (s.moveEnc (emitHeaderEntry ⟨name, value⟩))
  | .dec => .next (s.moveDec (readHeaderEntry ⟨name, value⟩))

/-- The ENC unit emits a name length (R42, R66). -/
def emitNameLen (n : BitVec 16) (v : EncVars) : Move EncVars Bytes :=
  if v.i ≥ Config.hdrMax then raise .limitHeaders
  else .go { v with out := emit v.out (be16 n.toNat), due := .name }

/-- The DEC unit has read a name length (R88): the name and the value length after it must fit (R89). -/
def readNameLen (n : BitVec 16) (v : DecVars) : Move DecVars Message :=
  if 2 + n.toNat + 2 > v.unread then raise .truncatedInput
  else .go { v with n := n, due := .name }

/-- `NAME_LEN` (R42). -/
def execNameLen (u : Agent) (n : BitVec 16) (s : State) : Host.Outcome State Fault Refusal :=
  match u with
  | .enc => .next (s.moveEnc (emitNameLen n))
  | .dec => .next (s.moveDec (readNameLen n))

/-- The ENC unit emits a name (R43, R66), within the limit (R64). -/
def emitName (bytes : Bytes) (v : EncVars) : Move EncVars Bytes :=
  if bytes.length > Config.fieldMax then raise .limitField
  else .go { v with out := emit v.out bytes, due := .valueLen }

/-- The DEC unit has read a name (R89). -/
def readName (bytes : Bytes) (v : DecVars) : Move DecVars Message :=
  .go { v with name := bytes, due := .valueLen }

/-- `NAME` (R43). -/
def execName (u : Agent) (bytes : Bytes) (s : State) : Host.Outcome State Fault Refusal :=
  match u with
  | .enc => .next (s.moveEnc (emitName bytes))
  | .dec => .next (s.moveDec (readName bytes))

/-- The ENC unit emits a value length (R44, R66). -/
def emitValueLen (m : BitVec 16) (v : EncVars) : Move EncVars Bytes :=
  .go { v with out := emit v.out (be16 m.toNat), due := .value }

/-- The DEC unit has read a value length (R90): the value must fit (R91). -/
def readValueLen (m : BitVec 16) (v : DecVars) : Move DecVars Message :=
  if 4 + v.n.toNat + m.toNat > v.unread then raise .truncatedInput
  else .go { v with m := m, due := .value }

/-- `VALUE_LEN` (R44). -/
def execValueLen (u : Agent) (m : BitVec 16) (s : State) : Host.Outcome State Fault Refusal :=
  match u with
  | .enc => .next (s.moveEnc (emitValueLen m))
  | .dec => .next (s.moveDec (readValueLen m))

/-- The ENC unit emits a value (R44, R66), within the limit (R64); the entry is then out. -/
def emitValue (bytes : Bytes) (v : EncVars) : Move EncVars Bytes :=
  if bytes.length > Config.fieldMax then raise .limitField
  else .go { v with out := emit v.out bytes, i := v.i + 1, due := .boundary }

/-- The DEC unit has read a value (R91): the entry is accepted (R92). -/
def readValue (bytes : Bytes) (v : DecVars) : Move DecVars Message :=
  .go (v.accept ⟨v.name, bytes⟩ v.n.toNat v.m.toNat)

/-- `VALUE` (R44). -/
def execValue (u : Agent) (bytes : Bytes) (s : State) : Host.Outcome State Fault Refusal :=
  match u with
  | .enc => .next (s.moveEnc (emitValue bytes))
  | .dec => .next (s.moveDec (readValue bytes))

end Sys2Proof.Machine
end

