-- ==== Sys2Proof/Machine/MessageFields.lean ====
section
/-! DEFINITION. The format rows of the rest of the buffer and of the result: SIZE_PREFIX, PAYLOAD and MESSAGE
(`30_encoding.md` R40, R45 to R50), and STATUS (`60_exceptions.md` R128, R131). -/

namespace Sys2Proof.Machine

/-- The ENC unit composes and emits the size prefix (R67). -/
def emitSizePrefix (cnt : BitVec 6) (plen : BitVec 18) (v : EncVars) : Move EncVars Bytes :=
  .go { v with out := emit v.out (composePrefix cnt.toNat plen.toNat), due := .payload }

/-- The DEC unit has read the three bytes at a boundary as a size prefix: too few bytes, then the terminator test, then
the cut-off at 63, else one more entry is parsed (R83 to R87). -/
def readSizePrefix (cnt : BitVec 6) (plen : BitVec 18) (v : DecVars) : Move DecVars Message :=
  if v.unread < 3 then raise .truncatedInput
  else if terminator cnt.toNat plen.toNat v.k v.unread then .go { v with due := .payload }
  else if v.k = Config.hdrMax then raise (cutOffError cnt.toNat plen.toNat v.unread)
  else .go { v with due := .nameLen }

/-- `SIZE_PREFIX` (R45). -/
def execSizePrefix (u : Agent) (cnt : BitVec 6) (plen : BitVec 18) (s : State) : Host.Outcome State Fault Refusal :=
  match u with
  | .enc => .next (s.moveEnc (emitSizePrefix cnt plen))
  | .dec => .next (s.moveDec (readSizePrefix cnt plen))

/-- The ENC unit emits the payload unchanged (R68), within the limit (R63). -/
def emitPayload (bytes : Bytes) (v : EncVars) : Move EncVars Bytes :=
  if bytes.length > Config.payloadMax then raise .limitPayload
  else .go { v with out := emit v.out bytes, due := .status }

/-- The DEC unit has read the payload (R86). -/
def readPayload (bytes : Bytes) (v : DecVars) : Move DecVars Message :=
  .go { v with payload := bytes, due := .status }

/-- `PAYLOAD` (R50). -/
def execPayload (u : Agent) (bytes : Bytes) (s : State) : Host.Outcome State Fault Refusal :=
  match u with
  | .enc => .next (s.moveEnc (emitPayload bytes))
  | .dec => .next (s.moveDec (readPayload bytes))

/-- The ENC unit checks a message and emits all of its bytes (R61, R65). -/
def emitMessage (msg : Message) (v : EncVars) : Move EncVars Bytes :=
  match limitError msg with
  | some e => raise e
  | none => .go { v with out := emit v.out (messageBytes msg), i := msg.headers.length, due := .status }

/-- The DEC unit has read the whole buffer as a message (R86, R94): the cursor stands at its size prefix. -/
def readMessage (msg : Message) (v : DecVars) : Move DecVars Message :=
  .go { v with hdrs := msg.headers, k := msg.headers.length, pos := v.buffer.length - 3 - msg.payload.length,
               payload := msg.payload, due := .status }

/-- `MESSAGE` (R40). -/
def execMessage (u : Agent) (msg : Message) (s : State) : Host.Outcome State Fault Refusal :=
  match u with
  | .enc => .next (s.moveEnc (emitMessage msg))
  | .dec => .next (s.moveDec (readMessage msg))

/-- The ENC unit ends its operation: `return OK(out)` or `raise e` (R69, R131). -/
def endEncode (st : Status) (v : EncVars) : Move EncVars Bytes :=
  match st with
  | .ok => .done (.ok v.out)
  | .error e => raise e

/-- The DEC unit ends its operation: `return OK((hdrs, payload))` or `raise e` (R93, R131). -/
def endDecode (st : Status) (v : DecVars) : Move DecVars Message :=
  match st with
  | .ok => .done (.ok ⟨v.hdrs, v.payload⟩)
  | .error e => raise e

/-- `STATUS` (R128): a unit ends its operation and delivers its result with this status. A status that is none of the
unit's is refused (log entry 15). -/
def execStatus (u : Agent) (st : Status) (s : State) : Host.Outcome State Fault Refusal :=
  if st.belongsTo u then
    match u with
    | .enc => .next (s.moveEnc (endEncode st))
    | .dec => .next (s.moveDec (endDecode st))
  else .refused .statusOfOtherUnit

end Sys2Proof.Machine
end

