-- ==== Sys2Proof/Machine/Operations.lean ====
section
/-! DEFINITION. The two operations, each one atomic step from a whole operand to a whole result (`00_scope.md` R6,
`40_encoder.md` R69, `41_decoder.md` R93). A unit that is busy ends its operation before it takes the operand (`10_state.md` R12). -/

namespace Sys2Proof.Machine

/-- `ENCODE`: the ENC unit encodes the Message at its port and delivers the result (R60, R69). -/
def execEncode (s : State) : Host.Outcome State Fault Refusal :=
  .next ((s.finish .enc).deliverEnc (encodeMessage s.encPort))

/-- `DECODE`: the DEC unit decodes the buffer at its port and delivers the result (R80, R93). -/
def execDecode (s : State) : Host.Outcome State Fault Refusal :=
  .next ((s.finish .dec).deliverDec (decodeBytes s.decPort))

end Sys2Proof.Machine
end

