-- ==== Sys2Proof/Machine/Dispatch.lean ====
section
/-! DEFINITION. The meaning of every instruction of the opcode table, one arm each. -/

namespace Sys2Proof.Machine

/-- What an instruction does at a state. -/
def exec (i : Instr) (s : State) : Host.Outcome State Fault Refusal :=
  match i with
  | .encode => Sys2Proof.Machine.execEncode s
  | .decode => Sys2Proof.Machine.execDecode s
  | .headerEntry u nm val => Sys2Proof.Machine.execHeaderEntry u nm val s
  | .nameLen u n => Sys2Proof.Machine.execNameLen u n s
  | .name u bytes => Sys2Proof.Machine.execName u bytes s
  | .valueLen u m => Sys2Proof.Machine.execValueLen u m s
  | .value u bytes => Sys2Proof.Machine.execValue u bytes s
  | .sizePrefix u cnt plen => Sys2Proof.Machine.execSizePrefix u cnt plen s
  | .payload u bytes => Sys2Proof.Machine.execPayload u bytes s
  | .message u msg => Sys2Proof.Machine.execMessage u msg s
  | .status u st => Sys2Proof.Machine.execStatus u st s

end Sys2Proof.Machine
end

