-- ==== Sys2Proof/Machine/Fetch.lean ====
section
/-! DEFINITION. Which transfer a unit with an operation in progress carries out next, and with which content: for the
ENC unit the next field of its operand (`40_encoder.md` R65 to R68), for the DEC unit the bytes at the address the rules
give (`41_decoder.md` R83 to R92). -/

namespace Sys2Proof.Machine

/-- The size prefix of `c` entries and `p` payload bytes as an instruction: the fields of the three composed bytes (R47, R49). -/
def sizePrefixInstr (u : Agent) (c p : Nat) : Instr :=
  match composePrefix c p with
  | [y0, y1, y2] => .sizePrefix u (BitVec.ofNat 6 (prefixCnt y0)) (BitVec.ofNat 18 (prefixPlen y0 y1 y2))
  | _ => .status u .ok

/-- The field after the last entry: the size prefix, then the payload, then the result (R65, R69). -/
def EncVars.afterEntries (v : EncVars) : Instr :=
  match v.due with
  | .payload => .payload .enc v.operand.payload
  | .status => .status .enc .ok
  | _ => sizePrefixInstr .enc v.operand.headers.length v.operand.payload.length

/-- The next field within the entries, where one is left (R65, R66). -/
def EncVars.inEntries (v : EncVars) (e : Entry) (g : Grain) : Instr :=
  match v.due with
  | .boundary =>
    match g with
    | .field => .nameLen .enc (BitVec.ofNat 16 e.name.length)
    | _ => .headerEntry .enc e.name e.value
  | .name => .name .enc e.name
  | .valueLen => .valueLen .enc (BitVec.ofNat 16 e.value.length)
  | .value => .value .enc e.value
  | .payload => .payload .enc v.operand.payload
  | .status => .status .enc .ok

/-- The next transfer of the ENC unit. The operand is checked completely before anything is emitted (R61). -/
def EncVars.fetch (v : EncVars) (g : Grain) : Instr :=
  match limitError v.operand with
  | some e => .status .enc (.error e)
  | none =>
    if g = .whole ∧ v.i = 0 ∧ v.due = .boundary then .message .enc v.operand
    else
      match v.operand.headers[v.i]? with
      | some e => v.inEntries e g
      | none => v.afterEntries

/-- The field of format `f` in these bytes of the DEC unit's buffer; where the bytes end before the field does, the operation ends with TruncatedInput (R29). -/
def fieldOrTruncated (f : Format) : Option Bytes → Instr
  | none => .status .dec (.error .truncatedInput)
  | some bytes =>
    match decode (.field .dec f) bytes with
    | .instr i _ => i
    | .rejected _ => .status .dec (.error .truncatedInput)

/-- The whole buffer as one transfer: the message DECODE finds in it, or its error (R93). -/
def wholeBuffer (b : Bytes) : Instr :=
  match decodeBytes b with
  | .ok m => .message .dec m
  | .err e => .status .dec (.error e)

/-- The next transfer of the DEC unit, its bytes read at the address of R85, R88, R89, R90, R91 or R86. -/
def DecVars.fetch (v : DecVars) (g : Grain) : Instr :=
  match v.due with
  | .boundary =>
    if g = .whole ∧ v.pos = 0 ∧ v.k = 0 then wholeBuffer v.buffer
    else fieldOrTruncated .sizePrefix (memRead v.buffer v.pos 3)
  | .nameLen =>
    match g with
    | .field => fieldOrTruncated .nameLen (memRead v.buffer v.pos 2)
    | _ => fieldOrTruncated .headerEntry (some (v.buffer.drop v.pos))
  | .name => fieldOrTruncated .name (memRead v.buffer (v.pos + 2) v.n.toNat)
  | .valueLen => fieldOrTruncated .valueLen (memRead v.buffer (v.pos + 2 + v.n.toNat) 2)
  | .value => fieldOrTruncated .value (memRead v.buffer (v.pos + 4 + v.n.toNat) v.m.toNat)
  | .payload => fieldOrTruncated .payload (memRead v.buffer (v.pos + 3) (v.unread - 3))
  | .status => .status .dec .ok

/-- The next transfer of a unit; none when it is idle. -/
def State.fetch (s : State) (u : Agent) (g : Grain) : Option Instr :=
  match u with
  | .enc => s.enc.map (fun v => v.fetch g)
  | .dec => s.dec.map (fun v => v.fetch g)

end Sys2Proof.Machine
end

