-- ==== Sys2Proof/Machine/Step.lean ====
section
/-! DEFINITION. One step of the machine: the oldest event of the host is taken and carried out. -/

namespace Sys2Proof.Machine

/-- A request for a whole operation: the instruction in the bytes of its tag is executed (R57). -/
def State.runRequest (s : State) (code : Bytes) : Host.Outcome State Fault Refusal :=
  match decode .op code with
  | .instr i [] => exec i s
  | .instr _ (_ :: _) => .refused (.undecodable .tooLong)
  | .rejected r => .refused (.undecodable r)

/-- A unit carries out its next transfer; an idle unit has none and nothing happens (log entry 4). -/
def State.runTick (s : State) (u : Agent) (g : Grain) : Host.Outcome State Fault Refusal :=
  match s.fetch u g with
  | some i => exec i s
  | none => .next s

/-- What one event of the host makes the block do. -/
def State.runEvent (s : State) : HostEvent → Host.Outcome State Fault Refusal
  | .request code ops =>
    match s.presentLine ops with
    | some s' => s'.runRequest code
    | none => .refused .noOperandValue
  | .start u ops =>
    match s.presentLine ops with
    | some s' => .next (s'.begin u)
    | none => .refused .noOperandValue
  | .tick u g => s.runTick u g
  | .reset => .next s.assertReset

/-- One step: the oldest pending event is taken off and carried out; with nothing pending the machine stays as it is (log entry 7). -/
def step (s : State) : Host.Outcome State Fault Refusal :=
  match s.pending with
  | [] => .next s
  | e :: rest => State.runEvent { s with pending := rest } e

/-- The state in which the very next step fetches and runs the instruction of a table word (log entries 6 and 16): a
tag stands in a request at the front of the host's events; a wire field stands in the buffer of a DECODE in progress, at
the place where the unit reads next. -/
def State.withFetchWord (s : State) (nbits w : Nat) : State :=
  let bytes := wordBytes (nbits / 8) w
  match tablePosition nbits with
  | some .op => { s with pending := .request bytes ⟨.held, .held⟩ :: s.pending }
  | some (.field _ .nameLen) =>
    { s with dec := some { DecVars.start bytes with due := .nameLen }, pending := .tick .dec .field :: s.pending }
  | some (.field _ .headerEntry) =>
    { s with dec := some { DecVars.start bytes with due := .nameLen }, pending := .tick .dec .entry :: s.pending }
  | some (.field _ _) => { s with dec := some (DecVars.start bytes), pending := .tick .dec .field :: s.pending }
  | none => s

end Sys2Proof.Machine
end

