-- ==== Sys2Proof/Safety.lean ====
section
/-! DEFINITION. What counts as a sound state, in the terms the claims use: which boundaries a scan reaches
(`41_decoder.md` R82), and what the working variables of an operation in progress hold (`10_state.md` R19 to R22,
`40_encoder.md` R65 to R69, `41_decoder.md` R83 to R92). -/

namespace Sys2Proof.Machine

/-- The outcome of `k` steps, the first fault or refusal ending them: `Host.Core.run` of this machine. -/
def steps : Nat → State → Host.Outcome State Fault Refusal
  | 0, s => .next s
  | k + 1, s =>
    match step s with
    | .next t => steps k t
    | .fault r => .fault r
    | .refused r => .refused r

/-- The boundaries a scan of `b` reaches, each with the entries parsed before it: the first is `(0, 0)`, and from one
at which an entry is parsed the next lies after that entry (R82). -/
inductive Reached (b : Bytes) : Nat → List Entry → Prop where
  | start : Reached b 0 []
  | next {pos : Nat} {hdrs : List Entry} {e : Entry} (h : Reached b pos hdrs)
      (hv : visit b pos hdrs.length = .entry e) : Reached b (pos + e.size) (hdrs ++ [e])

/-- The loop of DECODE from a boundary, rule by rule and byte by byte as the rules write it, with the result it gives:
one constructor for each way a visit of a boundary can go (R83 to R93). It names neither `visit` nor `decodeFrom`, so
that the two can be held against it. -/
inductive Scans (b : Bytes) : (pos k : Nat) → (hdrs : List Entry) → Result Message → Prop where
  /-- Fewer than 3 bytes remain (R84). -/
  | tooFew {pos k : Nat} {hdrs : List Entry} (hR : b.length - pos < 3) :
      Scans b pos k hdrs (.err .truncatedInput)
  /-- The terminator test holds (R85, R86). -/
  | stop {pos k : Nat} {hdrs : List Entry} {y0 y1 y2 : Byte}
      (h0 : b[pos]? = some y0) (h1 : b[pos + 1]? = some y1) (h2 : b[pos + 2]? = some y2)
      (hcnt : y0.toNat >>> 2 = k)
      (hplen : ((y0.toNat &&& 3) <<< 16) ||| (y1.toNat <<< 8) ||| y2.toNat = b.length - pos - 3) :
      Scans b pos k hdrs (.ok ⟨hdrs, b.drop (pos + 3)⟩)
  /-- 63 entries are parsed and the test fails (R87). -/
  | cutOff {pos k : Nat} {hdrs : List Entry} {y0 y1 y2 : Byte}
      (h0 : b[pos]? = some y0) (h1 : b[pos + 1]? = some y1) (h2 : b[pos + 2]? = some y2)
      (ht : ¬ (y0.toNat >>> 2 = k ∧
        ((y0.toNat &&& 3) <<< 16) ||| (y1.toNat <<< 8) ||| y2.toNat = b.length - pos - 3))
      (hk : k = 63) :
      Scans b pos k hdrs (.err (if y0.toNat >>> 2 = 63 ∧
        ((y0.toNat &&& 3) <<< 16) ||| (y1.toNat <<< 8) ||| y2.toNat > b.length - pos - 3
        then .truncatedInput else .malformed))
  /-- The name, or the value length after it, runs past the end (R88, R89). -/
  | nameOverrun {pos k : Nat} {hdrs : List Entry} {y0 y1 y2 : Byte}
      (h0 : b[pos]? = some y0) (h1 : b[pos + 1]? = some y1) (h2 : b[pos + 2]? = some y2)
      (ht : ¬ (y0.toNat >>> 2 = k ∧
        ((y0.toNat &&& 3) <<< 16) ||| (y1.toNat <<< 8) ||| y2.toNat = b.length - pos - 3))
      (hk : k ≠ 63) (hN : 2 + ((y0.toNat <<< 8) ||| y1.toNat) + 2 > b.length - pos) :
      Scans b pos k hdrs (.err .truncatedInput)
  /-- The value runs past the end (R90, R91). -/
  | valueOverrun {pos k N : Nat} {hdrs : List Entry} {y0 y1 y2 z0 z1 : Byte}
      (h0 : b[pos]? = some y0) (h1 : b[pos + 1]? = some y1) (h2 : b[pos + 2]? = some y2)
      (ht : ¬ (y0.toNat >>> 2 = k ∧
        ((y0.toNat &&& 3) <<< 16) ||| (y1.toNat <<< 8) ||| y2.toNat = b.length - pos - 3))
      (hk : k ≠ 63) (hN : N = (y0.toNat <<< 8) ||| y1.toNat) (hfit : 2 + N + 2 ≤ b.length - pos)
      (g0 : b[pos + 2 + N]? = some z0) (g1 : b[pos + 3 + N]? = some z1)
      (hM : 4 + N + ((z0.toNat <<< 8) ||| z1.toNat) > b.length - pos) :
      Scans b pos k hdrs (.err .truncatedInput)
  /-- One entry is accepted and the loop goes on at the next boundary (R92). -/
  | entry {pos k N M : Nat} {hdrs : List Entry} {y0 y1 y2 z0 z1 : Byte} {r : Result Message}
      (h0 : b[pos]? = some y0) (h1 : b[pos + 1]? = some y1) (h2 : b[pos + 2]? = some y2)
      (ht : ¬ (y0.toNat >>> 2 = k ∧
        ((y0.toNat &&& 3) <<< 16) ||| (y1.toNat <<< 8) ||| y2.toNat = b.length - pos - 3))
      (hk : k ≠ 63) (hN : N = (y0.toNat <<< 8) ||| y1.toNat) (hfit : 2 + N + 2 ≤ b.length - pos)
      (g0 : b[pos + 2 + N]? = some z0) (g1 : b[pos + 3 + N]? = some z1)
      (hM : M = (z0.toNat <<< 8) ||| z1.toNat) (hfit' : 4 + N + M ≤ b.length - pos)
      (hnext : Scans b (pos + 4 + N + M) (k + 1)
        (hdrs ++ [⟨(b.drop (pos + 2)).take N, (b.drop (pos + 4 + N)).take M⟩]) r) :
      Scans b pos k hdrs r

/-- What an ENCODE in progress has emitted, field by field (R65, R66): nothing where the operand breaks a limit (R61). -/
def EncVars.Sound (v : EncVars) : Prop :=
  match limitError v.operand with
  | some _ => v = EncVars.start v.operand
  | none =>
    let before := entriesBytes (v.operand.headers.take v.i)
    match v.due with
    | .boundary => v.i ≤ v.operand.headers.length ∧ v.out = before
    | .name => ∃ e, v.operand.headers[v.i]? = some e ∧ v.out = before ++ be16 e.name.length
    | .valueLen => ∃ e, v.operand.headers[v.i]? = some e ∧ v.out = before ++ be16 e.name.length ++ e.name
    | .value => ∃ e, v.operand.headers[v.i]? = some e ∧
        v.out = before ++ be16 e.name.length ++ e.name ++ be16 e.value.length
    | .payload => v.i = v.operand.headers.length ∧
        v.out = before ++ composePrefix v.operand.headers.length v.operand.payload.length
    | .status => v.i = v.operand.headers.length ∧ v.out = messageBytes v.operand

/-- The boundary of a DECODE in progress is one at which an entry is to be parsed: three bytes are there, they are not
the size prefix, and fewer than 63 entries are parsed (R88). -/
def DecVars.AtEntry (v : DecVars) : Prop :=
  v.k < Config.hdrMax ∧ ∃ y0 y1 y2, memRead v.buffer v.pos 3 = some [y0, y1, y2] ∧
    ¬ terminator (prefixCnt y0) (prefixPlen y0 y1 y2) v.k v.unread

/-- Where a DECODE in progress stands: at a boundary the scan of its operand reaches, with what it has read of the next
structure (R83 to R92). -/
def DecVars.Sound (v : DecVars) : Prop :=
  Reached v.buffer v.pos v.hdrs ∧ v.k = v.hdrs.length ∧
  match v.due with
  | .boundary => True
  | .nameLen => v.AtEntry
  | .name => v.AtEntry ∧ rd16 v.buffer v.pos = some v.n.toNat ∧ 2 + v.n.toNat + 2 ≤ v.unread
  | .valueLen => v.AtEntry ∧ rd16 v.buffer v.pos = some v.n.toNat ∧ 2 + v.n.toNat + 2 ≤ v.unread ∧
      memRead v.buffer (v.pos + 2) v.n.toNat = some v.name
  | .value => v.AtEntry ∧ rd16 v.buffer v.pos = some v.n.toNat ∧ 2 + v.n.toNat + 2 ≤ v.unread ∧
      memRead v.buffer (v.pos + 2) v.n.toNat = some v.name ∧
      rd16 v.buffer (v.pos + 2 + v.n.toNat) = some v.m.toNat ∧ 4 + v.n.toNat + v.m.toNat ≤ v.unread
  | .payload => visit v.buffer v.pos v.k = .accept (v.buffer.drop (v.pos + 3))
  | .status => visit v.buffer v.pos v.k = .accept v.payload

/-- A sound state: each unit is idle or holds the working variables of an operation that began with its operand. -/
def State.Sound (s : State) : Prop :=
  (∀ v, s.enc = some v → v.Sound) ∧ (∀ v, s.dec = some v → v.Sound)

end Sys2Proof.Machine
end

