-- ==== Sys2Proof/Certificates/Slice0/Obligations.lean ====
section
/-! DEFINITION. The statements for the provers. Each docstring says which rule or section of the spec it formalises. -/

open Sys2Proof Sys2Proof.Machine

/-! ### The wire format -/

/-- Words written out from the spec's encodings: the tags of R57, a name length and a value length (R42, R44), a header
entry (R41), size prefixes (R45, vector V8), a payload (R50), a whole message (R40, vector V15a, found in its bytes by the
scan of 41_decoder.md section 2) and status codes (R128). The byte that carries the tag is log entry 1, the byte that
carries the code and the refusal of code 6 log entry 15. -/
def Obligations.WordsOfTheSpecDecode : Prop :=
  decode .op [0x00] = .instr .encode [] ∧
  decode .op [0x01] = .instr .decode [] ∧
  decode (.field .dec .nameLen) [0x04, 0x05] = .instr (.nameLen .dec 1029) [] ∧
  decode (.field .dec .name) [0x61] = .instr (.name .dec [0x61]) [] ∧
  decode (.field .enc .valueLen) [0x00, 0xf7] = .instr (.valueLen .enc 247) [] ∧
  decode (.field .enc .value) [] = .instr (.value .enc []) [] ∧
  decode (.field .dec .headerEntry) [0x00, 0x01, 0x61, 0x00, 0x01, 0x62] = .instr (.headerEntry .dec [0x61] [0x62]) [] ∧
  decode (.field .dec .sizePrefix) [0xfb, 0xff, 0xff] = .instr (.sizePrefix .dec 62 262143) [] ∧
  decode (.field .enc .sizePrefix) [0x15, 0x00, 0x00] = .instr (.sizePrefix .enc 5 65536) [] ∧
  decode (.field .dec .payload) [0x55] = .instr (.payload .dec [0x55]) [] ∧
  decode (.field .dec .message) [0x00, 0x00, 0x01, 0x55] = .instr (.message .dec ⟨[], [0x55]⟩) [] ∧
  decode (.field .enc .status) [0x03] = .instr (.status .enc (.error .limitField)) [] ∧
  decode (.field .dec .status) [0x05] = .instr (.status .dec (.error .malformed)) [] ∧
  decode (.field .dec .status) [0x06] = .rejected .unusedStatus

/-- Decoding the words of a well-formed instruction, at the position where they stand, gives the instruction back with
every operand: for every row of the table. For MESSAGE this is the round trip of the codec on its exact domain, the
messages that are `decodable` (45_codec_laws.md sections 2 and 6). The tag and the status code are the spec's own numbers (D13, log
entries 1 and 15). -/
def Obligations.DecodeOfEncodeIsTheInstruction : Prop :=
  ∀ i : Instr, i.wellFormed = true → decode i.position (encode i) = .instr i []

/-- The other direction, for every wire field: bytes the decoder accepts at a field's position are the words of the
instruction it gives, followed by the rest, and that instruction is well formed and stands at that position. The status
code is left out: the bits above its three are not examined (log entry 15). -/
def Obligations.AcceptedFieldBytesAreTheWords : Prop :=
  ∀ (u : Agent) (f : Format) (bs rest : Bytes) (i : Instr), f ≠ .status →
    decode (.field u f) bs = .instr i rest →
    encode i ++ rest = bs ∧ i.position = .field u f ∧ i.wellFormed = true

/-- R42: the name length field is the two bytes `N >> 8` and `N & 0xFF`, every 16-bit pattern is one, and after
`N = 0` the value length follows at once. -/
def Obligations.NameLengthFieldIsBigEndian : Prop :=
  (∀ (u : Agent) (n : BitVec 16), encode (.nameLen u n) = [n.extractLsb' 8 8, n.extractLsb' 0 8]) ∧
  (∀ (u : Agent) (x y : Byte) (rest : Bytes),
    decode (.field u .nameLen) (x :: y :: rest) = .instr (.nameLen u (x ++ y)) rest) ∧
  (∀ (u : Agent) (m : BitVec 16) (val : Bytes), val.length = m.toNat →
    encode (.headerEntry u [] val) = [0, 0] ++ encode (.valueLen u m) ++ val)

/-- R41, R43, R44: an entry is its name length, name, value length and value, in this order and nothing else, `4 + N + M`
bytes and at least 4; byte `i` of the name is byte `2 + i`; the value length is `be16(M)` at bytes `2 + N` and `3 + N`;
byte `i` of the value is byte `4 + N + i`. Every byte value may occur and both lengths may be 0. -/
def Obligations.FieldsStandInTheEntry : Prop :=
  ∀ (u : Agent) (nm val : Bytes), nm.length ≤ 65535 → val.length ≤ 65535 →
    (encode (.headerEntry u nm val)).length = 4 + nm.length + val.length ∧
    4 ≤ (encode (.headerEntry u nm val)).length ∧
    (encode (.headerEntry u nm val))[0]? = some (BitVec.ofNat 8 (nm.length >>> 8)) ∧
    (encode (.headerEntry u nm val))[1]? = some (BitVec.ofNat 8 (nm.length &&& 0xFF)) ∧
    (∀ i, i < nm.length → (encode (.headerEntry u nm val))[2 + i]? = nm[i]?) ∧
    (encode (.headerEntry u nm val))[2 + nm.length]? = some (BitVec.ofNat 8 (val.length >>> 8)) ∧
    (encode (.headerEntry u nm val))[3 + nm.length]? = some (BitVec.ofNat 8 (val.length &&& 0xFF)) ∧
    (∀ i, i < val.length → (encode (.headerEntry u nm val))[4 + nm.length + i]? = val[i]?)

/-- R50: the payload block is the payload's bytes unchanged, byte `i` at index `H + 3 + i` of the buffer, and the buffer
ends with the last of them; with an empty payload it ends with the size prefix. -/
def Obligations.PayloadEndsTheBuffer : Prop :=
  ∀ (u : Agent) (m : Message),
    (∀ i, i < m.payload.length → (encode (.message u m))[entriesSize m.headers + 3 + i]? = m.payload[i]?) ∧
    (encode (.message u m)).length = entriesSize m.headers + 3 + m.payload.length

/-- `MemRead(addr, n)` reads exactly the `n` bytes from `addr` on and is defined exactly when they lie inside the buffer
(20_memory.md section 4). -/
def Obligations.MemReadReadsInsideTheBuffer : Prop :=
  ∀ (b : Bytes) (addr n : Nat),
    (addr + n ≤ b.length → ∃ x, memRead b addr n = some x ∧ x.length = n ∧ ∀ i, i < n → x[i]? = b[addr + i]?) ∧
    (b.length < addr + n → memRead b addr n = none)

/-- R45: the size prefix is one 24-bit big-endian number `W` with `CNT = W[23:18]` and `PLEN = W[17:0]`. -/
def Obligations.SizePrefixIsOneNumber : Prop :=
  ∀ (u : Agent) (w : BitVec 24),
    encode (.sizePrefix u (w.extractLsb' 18 6) (w.extractLsb' 0 18)) =
      [w.extractLsb' 16 8, w.extractLsb' 8 8, w.extractLsb' 0 8] ∧
    decode (.field u .sizePrefix) [w.extractLsb' 16 8, w.extractLsb' 8 8, w.extractLsb' 0 8] =
      .instr (.sizePrefix u (w.extractLsb' 18 6) (w.extractLsb' 0 18)) []

/-- The packing law of 45_codec_laws.md section 4: the composed bytes give count and payload length back for every count up to 63 and every
length up to 262143; for a length of 262144 they read as the count with its lowest bit set and the length 0. -/
def Obligations.PackingLaw : Prop :=
  ∀ (c p : Nat) (y0 y1 y2 : Byte), c ≤ 63 → p ≤ 262144 →
    [y0, y1, y2] = [BitVec.ofNat 8 ((c <<< 2) ||| (p >>> 16)), BitVec.ofNat 8 ((p >>> 8) &&& 0xFF), BitVec.ofNat 8 (p &&& 0xFF)] →
    (p ≤ 262143 → decode (.field .dec .sizePrefix) [y0, y1, y2] =
      .instr (.sizePrefix .dec (BitVec.ofNat 6 c) (BitVec.ofNat 18 p)) []) ∧
    (p = 262144 → decode (.field .dec .sizePrefix) [y0, y1, y2] =
      .instr (.sizePrefix .dec (BitVec.ofNat 6 (c ||| 1)) 0) [])

/-! ### Reset and the step -/

/-- After reset both units are idle, no operation is in progress and no result is pending (70_reset_and_hazards.md
section 1, D14). The ports and the host's events are the model's own and are left out (log entry 5). -/
def Obligations.ResetLeavesBothUnitsIdle : Prop :=
  State.reset.enc = none ∧ State.reset.dec = none ∧ State.reset.encResults = [] ∧ State.reset.decResults = []

/-- A step runs the decoded instruction: where the oldest event is a request whose bytes decode to an instruction and
whose operands exist, the step is that instruction's meaning, on the state with the event taken and the operands at the
ports (log entries 5, 6 and 11). -/
def Obligations.StepRunsTheDecodedRequest : Prop :=
  ∀ (s s' : State) (code : Bytes) (ops : Operands) (rest : List HostEvent) (i : Instr),
    s.pending = .request code ops :: rest → decode .op code = .instr i [] →
    State.presentLine { s with pending := rest } ops = some s' → step s = exec i s'

/-- A transfer of the DEC unit runs the field that stands in its buffer at the address the rules give for what is due
(41_decoder.md sections 2 and 3), decoded at its position; where the buffer ends first, the operation ends with
TruncatedInput (20_memory.md section 4). The events are the model's own (log entry 2). -/
def Obligations.StepRunsTheFieldAtTheCursor : Prop :=
  ∀ (s : State) (rest : List HostEvent) (v : DecVars) (f : Format) (addr n : Nat),
    s.pending = .tick .dec .field :: rest → s.dec = some v →
    ((v.due = .boundary ∧ f = .sizePrefix ∧ addr = v.pos ∧ n = 3) ∨
     (v.due = .nameLen ∧ f = .nameLen ∧ addr = v.pos ∧ n = 2) ∨
     (v.due = .name ∧ f = .name ∧ addr = v.pos + 2 ∧ n = v.n.toNat) ∨
     (v.due = .valueLen ∧ f = .valueLen ∧ addr = v.pos + 2 + v.n.toNat ∧ n = 2) ∨
     (v.due = .value ∧ f = .value ∧ addr = v.pos + 4 + v.n.toNat ∧ n = v.m.toNat) ∨
     (v.due = .payload ∧ f = .payload ∧ addr = v.pos + 3 ∧ n = v.buffer.length - v.pos - 3)) →
    (∀ (i : Instr) (left : Bytes), addr + n ≤ v.buffer.length →
      decode (.field .dec f) ((v.buffer.drop addr).take n) = .instr i left →
      step s = exec i { s with pending := rest }) ∧
    (v.buffer.length < addr + n →
      step s = .next { s with pending := rest, dec := none, decResults := s.decResults ++ [.err .truncatedInput] })

/-- With nothing pending the machine stays as it is, and a transfer of an idle unit does nothing (log entries 4 and 7). -/
def Obligations.IdleStepsChangeNothing : Prop :=
  (∀ s : State, s.pending = [] → step s = .next s) ∧
  (∀ (s : State) (g : Grain) (rest : List HostEvent), s.pending = .tick .enc g :: rest → s.enc = none →
    step s = .next { s with pending := rest }) ∧
  (∀ (s : State) (g : Grain) (rest : List HostEvent), s.pending = .tick .dec g :: rest → s.dec = none →
    step s = .next { s with pending := rest })

/-- Reset during an operation: it is abandoned and gives no result; the ports, the results already delivered and the
host's further events are as before (70_reset_and_hazards.md section 1, D14; log entry 10). -/
def Obligations.ResetAbandonsOperations : Prop :=
  ∀ (s : State) (rest : List HostEvent), s.pending = .reset :: rest →
    step s = .next { s with pending := rest, enc := none, dec := none }

/-- An operation begins with the start values of its working variables, whatever the unit did before: `out` empty, `pos`
and `k` 0, `hdrs` empty, and the operand that the host presents, in any form of a line (10_state.md sections 3 and 5).
`i` 0 is log entry 18. A unit that is busy gives the result of its operation first (10_state.md section 1; log entry 8). -/
def Obligations.OperationBeginsWithStartValues : Prop :=
  (∀ (s s' : State) (rest : List HostEvent) (ops : Operands),
    s.pending = .start .enc ops :: rest → State.presentLine { s with pending := rest } ops = some s' →
    ∃ v, step s = .next { s'.finish .enc with enc := some v } ∧ v.operand = s'.encPort ∧ v.out = [] ∧ v.i = 0) ∧
  (∀ (s s' : State) (rest : List HostEvent) (ops : Operands),
    s.pending = .start .dec ops :: rest → State.presentLine { s with pending := rest } ops = some s' →
    ∃ v, step s = .next { s'.finish .dec with dec := some v } ∧
      v.buffer = s'.decPort ∧ v.pos = 0 ∧ v.k = 0 ∧ v.hdrs = [])

/-- A unit takes its next operand only after it has given the result of the previous one (10_state.md section 1, the
spec's decision D2): an operation given to a busy unit, whole or to be carried out by transfers, is that operation given
to the unit after the result for its previous operand has been delivered. That this is within one step is log entry 8. -/
def Obligations.ABusyUnitGivesItsResultFirst : Prop :=
  (∀ (s : State) (v : EncVars), s.enc = some v →
    exec .encode s = exec .encode { s with enc := none, encResults := s.encResults ++ [encodeMessage v.operand] } ∧
    s.begin .enc = State.begin { s with enc := none, encResults := s.encResults ++ [encodeMessage v.operand] } .enc) ∧
  (∀ (s : State) (v : DecVars), s.dec = some v →
    exec .decode s = exec .decode { s with dec := none, decResults := s.decResults ++ [decodeBytes v.buffer] } ∧
    s.begin .dec = State.begin { s with dec := none, decResults := s.decResults ++ [decodeBytes v.buffer] } .dec)

/-- What a busy unit gives first is what its remaining transfers give (log entries 2 and 8): from a sound state, 255
transfers of the ENC unit, or 318 of the DEC unit, of any one grain, leave what ending the operation at once leaves. -/
def Obligations.EndingAtOnceIsTheRemainingTransfers : Prop :=
  ∀ (s : State) (g : Grain), s.Sound →
    steps 255 { s with pending := List.replicate 255 (.tick .enc g) } = .next { s.finish .enc with pending := [] } ∧
    steps 318 { s with pending := List.replicate 318 (.tick .dec g) } = .next { s.finish .dec with pending := [] }

/-- A line may use the value inside an OK result in its operand (30_encoding.md section 7): the step is then the operation
on that value. First the values and parts that a byte string can name, and `++` and `s[a..b)` (00_scope.md section 5);
then each form of a line: `r.val` of an ENCODE and `r.val.payload` for DECODE, `r.val` of a DECODE for ENCODE, and a Message
written from its parts, among them entries of its own, the entries of a result, and a result's bytes as its payload. An
error has no value, and a line that names the value of one, for either unit, or of a result that is not there while no
operation is in progress, is refused (log entry 11). -/
def Obligations.LaterLineUsesAnEarlierValue : Prop :=
  (∀ (s : State) (j : Nat) (b : Bytes), s.encResults[j]? = some (.ok b) → s.bytesOf (.encoded j) = some b) ∧
  (∀ (s : State) (j i : Nat) (m : Message) (e : Entry), s.decResults[j]? = some (.ok m) →
    s.bytesOf (.payloadOf j) = some m.payload ∧
    (m.headers[i]? = some e → s.bytesOf (.nameOf j i) = some e.name ∧ s.bytesOf (.valueOf j i) = some e.value)) ∧
  (∀ (s : State) (x y : BytesTerm) (bx b : Bytes) (a c : Nat), s.bytesOf x = some bx → s.bytesOf y = some b →
    s.bytesOf (.append x y) = some (bx ++ b) ∧
    (a ≤ c → c ≤ bx.length → s.bytesOf (.slice x a c) = some ((bx.drop a).take (c - a))) ∧
    (c < a ∨ bx.length < c → s.bytesOf (.slice x a c) = none)) ∧
  (∀ (s : State) (rest : List HostEvent) (t : BytesTerm) (b : Bytes),
    s.pending = .request [1] ⟨.held, .term t⟩ :: rest → s.bytesOf t = some b →
    step s = exec .decode { s with pending := rest, decPort := b }) ∧
  (∀ (s : State) (rest : List HostEvent) (j : Nat) (m : Message),
    s.pending = .request [0] ⟨.decoded j, .held⟩ :: rest → s.decResults[j]? = some (.ok m) →
    step s = exec .encode { s with pending := rest, encPort := m }) ∧
  (∀ (s : State) (rest : List HostEvent) (j : Nat) (m : Message) (tn tv tp : BytesTerm) (nm val payload : Bytes),
    s.pending = .request [0] ⟨.build [.entry tn tv, .headersOf j] tp, .held⟩ :: rest →
    s.bytesOf tn = some nm → s.bytesOf tv = some val → s.bytesOf tp = some payload → s.decResults[j]? = some (.ok m) →
    step s = exec .encode { s with pending := rest, encPort := ⟨⟨nm, val⟩ :: m.headers, payload⟩ }) ∧
  (∀ (s : State) (rest : List HostEvent) (tn tv tp : BytesTerm) (nm val payload : Bytes),
    s.pending = .request [0] ⟨.build [.entry tn tv] tp, .held⟩ :: rest →
    s.bytesOf tn = some nm → s.bytesOf tv = some val → s.bytesOf tp = some payload →
    step s = exec .encode { s with pending := rest, encPort := ⟨[⟨nm, val⟩], payload⟩ }) ∧
  (∀ (s : State) (rest : List HostEvent) (j : Nat) (code : Bytes),
    (∃ e, s.encResults[j]? = some (.err e)) ∨ (s.enc = none ∧ s.encResults.length ≤ j) →
    s.pending = .request code ⟨.held, .term (.encoded j)⟩ :: rest →
    step s = .refused .noOperandValue) ∧
  (∀ (s : State) (rest : List HostEvent) (j : Nat) (code : Bytes),
    (∃ e, s.decResults[j]? = some (.err e)) ∨ (s.dec = none ∧ s.decResults.length ≤ j) →
    s.pending = .request code ⟨.held, .term (.payloadOf j)⟩ :: rest ∨
    s.pending = .request code ⟨.decoded j, .held⟩ :: rest →
    step s = .refused .noOperandValue) ∧
  (∀ (s : State) (rest : List HostEvent) (v : EncVars) (b : Bytes),
    s.pending = .request [1] ⟨.held, .term (.encoded s.encResults.length)⟩ :: rest → s.enc = some v →
    encodeMessage v.operand = .ok b →
    step s = exec .decode { (s.finish .enc).finish .dec with pending := rest, decPort := b })

/-! ### ENCODE -/

/-- ENCODE is its pseudocode (40_encoder.md section 4). The checks in the order headers, payload, field, the first that
fails being the result (the order is the spec's decision D10, the third error its decision D9); else every entry in list
order, the three bytes of the size prefix, the payload. The unit is idle afterwards and nothing else changes, but that a
busy unit gives the result of its previous operand first (log entry 8). -/
def Obligations.EncodeIsItsPseudocode : Prop :=
  ∀ s : State, exec .encode s = .next { s.finish .enc with
    enc := none
    encResults := (s.finish .enc).encResults ++
      [if s.encPort.headers.length > 63 then .err .limitHeaders
       else if s.encPort.payload.length > 262144 then .err .limitPayload
       else if ∃ e ∈ s.encPort.headers, e.name.length > 65535 ∨ e.value.length > 65535 then .err .limitField
       else .ok (s.encPort.headers.flatMap (fun e =>
            [BitVec.ofNat 8 (e.name.length >>> 8), BitVec.ofNat 8 (e.name.length &&& 0xFF)] ++ e.name ++
            [BitVec.ofNat 8 (e.value.length >>> 8), BitVec.ofNat 8 (e.value.length &&& 0xFF)] ++ e.value)
          ++ [BitVec.ofNat 8 ((s.encPort.headers.length <<< 2) ||| (s.encPort.payload.length >>> 16)),
              BitVec.ofNat 8 ((s.encPort.payload.length >>> 8) &&& 0xFF),
              BitVec.ofNat 8 (s.encPort.payload.length &&& 0xFF)]
          ++ s.encPort.payload)] }

/-- R65, R66, R67, R68: after the checks pass ENCODE emits every entry in list order, each as `be16(N)`, name, `be16(M)`,
value, whatever their bytes are; then the three bytes of the size prefix, whose count is the number of entries; then the
payload unchanged. The unit is given its operand when it is idle; EncodeIsItsPseudocode says the same of a busy one. -/
def Obligations.EncodeEmitsEntriesPrefixAndPayload : Prop :=
  ∀ s : State, s.enc = none → s.encPort.limits →
    exec .encode s = .next { s with enc := none, encResults := s.encResults ++ [.ok (
      s.encPort.headers.flatMap (fun e => encode (.nameLen .enc (BitVec.ofNat 16 e.name.length)) ++ e.name ++
        encode (.valueLen .enc (BitVec.ofNat 16 e.value.length)) ++ e.value) ++
      [BitVec.ofNat 8 ((s.encPort.headers.length <<< 2) ||| (s.encPort.payload.length >>> 16)),
       BitVec.ofNat 8 ((s.encPort.payload.length >>> 8) &&& 0xFF),
       BitVec.ofNat 8 (s.encPort.payload.length &&& 0xFF)] ++ s.encPort.payload)] }

/-- R62, R126, R127: `LimitExceeded(headers)` is the result exactly when the header count is greater than 63, and
`LimitExceeded(payload)` exactly when it is not and the payload length is greater than 262144; each comes alone, before
any byte, and only from ENCODE. The unit is given its operand when it is idle; EncodeIsItsPseudocode says the same of a busy
one. -/
def Obligations.HeaderAndPayloadLimits : Prop :=
  (∀ s : State, s.enc = none → s.encPort.headers.length > 63 →
    exec .encode s = .next { s with enc := none, encResults := s.encResults ++ [.err .limitHeaders] }) ∧
  (∀ s : State, s.enc = none → s.encPort.headers.length ≤ 63 → s.encPort.payload.length > 262144 →
    exec .encode s = .next { s with enc := none, encResults := s.encResults ++ [.err .limitPayload] }) ∧
  (∀ m : Message, encodeMessage m = .err .limitHeaders → m.headers.length > 63) ∧
  (∀ m : Message, encodeMessage m = .err .limitPayload → m.headers.length ≤ 63 ∧ m.payload.length > 262144) ∧
  (∀ b : Bytes, decodeBytes b ≠ .err .limitHeaders ∧ decodeBytes b ≠ .err .limitPayload)

/-- The limit enforcement law for the remaining results (45_codec_laws.md section 5): ENCODE succeeds exactly within the
limits, and raises the field error exactly when both counts are in bounds and some name or value is too long. -/
def Obligations.EncodeLimitEnforcement : Prop :=
  ∀ m : Message,
    ((∃ out, encodeMessage m = .ok out) ↔ m.limits) ∧
    (encodeMessage m = .err .limitField ↔ m.headers.length ≤ 63 ∧ m.payload.length ≤ 262144 ∧
      ∃ e ∈ m.headers, e.name.length > 65535 ∨ e.value.length > 65535)

/-- The length law (45_codec_laws.md section 5): the length of an encoding is the sum over its entries of 4 plus both
lengths, plus 3, plus the payload length, between 3 and 8519809. -/
def Obligations.EncodedLength : Prop :=
  ∀ (m : Message) (out : Bytes), encodeMessage m = .ok out →
    out.length = (m.headers.map (fun e => 4 + e.name.length + e.value.length)).sum + 3 + m.payload.length ∧
    3 ≤ out.length ∧ out.length ≤ 8519809

/-- R73: no headers and an empty payload encode to three zero bytes. The unit is given its operand when it is idle;
EncodeIsItsPseudocode says the same of a busy one. -/
def Obligations.EmptyMessageEncodesToThreeZeros : Prop :=
  ∀ s : State, s.enc = none → s.encPort = ⟨[], []⟩ →
    exec .encode s = .next { s with enc := none, encResults := s.encResults ++ [.ok [0x00, 0x00, 0x00]] }

/-- A payload of exactly 262144 bytes (40_encoder.md section 5, derived there): ENCODE succeeds, the size prefix is
`(c << 2) | 4, 0, 0`, all payload bytes follow, and DECODE of the output never gives the message back. -/
def Obligations.PayloadOf262144IsEncodedButNotRecovered : Prop :=
  ∀ m : Message, m.limits → m.payload.length = 262144 →
    ∃ out, encodeMessage m = .ok out ∧
      out.length = entriesSize m.headers + 3 + 262144 ∧
      out.drop (entriesSize m.headers) = [BitVec.ofNat 8 ((m.headers.length <<< 2) ||| 4), 0, 0] ++ m.payload ∧
      decodeBytes out ≠ .ok m

/-! ### DECODE -/

/-- DECODE completes on every buffer: the unit delivers the result that is a function of the buffer alone, an error
without a value (41_decoder.md sections 1 and 4), is idle afterwards, and nothing else changes, but that a busy unit
gives the result of its previous operand first (log entry 8). -/
def Obligations.DecodeDeliversOneResult : Prop :=
  ∀ s : State, exec .decode s = .next { s.finish .dec with
    dec := none, decResults := (s.finish .dec).decResults ++ [decodeBytes s.decPort] }

/-- DECODE is its pseudocode (41_decoder.md section 4, on the spec's decisions D6, D7 and D8). The result of a buffer is
the one and only result that the loop, written rule by rule with single bytes in `Scans`, gives from `pos = 0`, `k = 0`
and no entries. -/
def Obligations.DecodeIsItsPseudocode : Prop :=
  ∀ (b : Bytes) (r : Result Message), decodeBytes b = r ↔ Scans b 0 0 [] r

/-- The re-encoding law (45_codec_laws.md section 1): DECODE accepts a buffer only when it is, byte for byte, the
encoding of the message it returns. -/
def Obligations.ReEncodingLaw : Prop :=
  ∀ (b : Bytes) (m : Message), decodeBytes b = .ok m → encodeMessage m = .ok b

/-- Limits of a DECODE result (45_codec_laws.md section 1). -/
def Obligations.DecodeResultWithinLimits : Prop :=
  ∀ (b : Bytes) (m : Message), decodeBytes b = .ok m →
    m.headers.length ≤ 63 ∧ (∀ e ∈ m.headers, e.name.length ≤ 65535 ∧ e.value.length ≤ 65535) ∧
    m.payload.length ≤ 262143 ∧ b.length ≤ 8519808

/-- Which message comes back from an encoding (45_codec_laws.md section 2): with `ks` the first boundary that is a false
stop or the true size prefix, the first `ks` entries, and everything after three bytes at that boundary as the payload;
the message itself if that is the true one. Decoding an encoding with at most 262143 payload bytes never fails. -/
def Obligations.WhichMessageComesBack : Prop :=
  ∀ (m : Message) (out : Bytes), m.payload.length ≤ 262143 → encodeMessage m = .ok out →
    ∃ ks, ks ≤ m.headers.length ∧ (ks = m.headers.length ∨ m.falseStopAt ks) ∧ (∀ k < ks, ¬ m.falseStopAt k) ∧
      decodeBytes out = .ok ⟨m.headers.take ks, out.drop (entriesSize (m.headers.take ks) + 3)⟩ ∧
      (ks = m.headers.length → decodeBytes out = .ok m)

/-- The round-trip law on its exact domain (45_codec_laws.md section 2). -/
def Obligations.RoundTripExactlyOnItsDomain : Prop :=
  ∀ (m : Message) (out : Bytes), encodeMessage m = .ok out →
    (decodeBytes out = .ok m ↔ m.payload.length ≤ 262143 ∧ ∀ k < m.headers.length, ¬ m.falseStopAt k)

/-- The accepted set (45_codec_laws.md section 6): DECODE accepts exactly the encodings of unambiguous messages whose
payload fits the 18-bit field, and returns that message. Names need not be distinct. -/
def Obligations.AcceptedSet : Prop :=
  ∀ (b : Bytes) (m : Message), decodeBytes b = .ok m ↔
    m.headers.length ≤ 63 ∧ m.payload.length ≤ 262143 ∧
    (∀ e ∈ m.headers, e.name.length ≤ 65535 ∧ e.value.length ≤ 65535) ∧
    encodeMessage m = .ok b ∧ ∀ k < m.headers.length, ¬ m.falseStopAt k

/-- The encoding is not one to one (45_codec_laws.md section 2): two valid messages with the same 259-byte encoding, of
which DECODE returns the first. -/
def Obligations.TwoMessagesOneEncoding : Prop :=
  ∃ (mA mB : Message) (out : Bytes), mA ≠ mB ∧ mA.valid ∧ mB.valid ∧ out.length = 259 ∧
    mA = ⟨[], [0x00, 0xfb] ++ List.replicate 251 0 ++ [0x04, 0x00, 0x00]⟩ ∧
    mB = ⟨[⟨[0x00], List.replicate 251 0⟩], []⟩ ∧
    encodeMessage mA = .ok out ∧ encodeMessage mB = .ok out ∧ decodeBytes out = .ok mA

/-- Conditions that rule a false stop out (45_codec_laws.md section 2), each sufficient for its boundary. -/
def Obligations.ConditionsAgainstFalseStops : Prop :=
  ∀ m : Message,
    (m.headers = [] → ∀ k, ¬ m.falseStopAt k) ∧
    (∀ k e, m.headers[k]? = some e →
      (e.name.length >>> 10 ≠ k → ¬ m.falseStopAt k) ∧
      (e.name.length % 1024 * 256 > entriesSize (m.headers.drop k) + 3 + m.payload.length - 3 → ¬ m.falseStopAt k) ∧
      (e.name.length % 1024 * 256 + 255 < entriesSize (m.headers.drop k) + 3 + m.payload.length - 3 →
        e.value.length ≤ 65535 → ¬ m.falseStopAt k)) ∧
    ((∀ e ∈ m.headers, e.name.length < 1024) → ∀ k, m.falseStopAt k → k = 0) ∧
    (∀ e es, m.headers = e :: es → e.name ≠ [] → e.name.length < 1024 →
      entriesSize m.headers + 3 + m.payload.length ≤ 258 → ¬ m.falseStopAt 0)

/-- The truncation law (45_codec_laws.md section 3): a proper prefix of an encoding never decodes to the original
message; if it decodes, it is itself the encoding of what comes back; shorter than 3 bytes it is TruncatedInput. -/
def Obligations.TruncationLaw : Prop :=
  ∀ (m : Message) (out cut : Bytes), encodeMessage m = .ok out → cut <+: out → cut ≠ out →
    decodeBytes cut ≠ .ok m ∧ (∀ m', decodeBytes cut = .ok m' → encodeMessage m' = .ok cut) ∧
    (cut.length < 3 → decodeBytes cut = .err .truncatedInput)

/-- A truncated encoding that decodes (45_codec_laws.md section 3): 260 bytes whose first 259 are another message's encoding. -/
def Obligations.ATruncatedEncodingThatDecodes : Prop :=
  ∃ (mC : Message) (out : Bytes), mC = ⟨[⟨[0x00], List.replicate 252 0⟩], []⟩ ∧
    encodeMessage mC = .ok out ∧ out.length = 260 ∧ decodeBytes out = .ok mC ∧
    decodeBytes (out.take 259) = .ok ⟨[], (out.take 259).drop 3⟩

/-- The extension law (45_codec_laws.md section 3): an encoding with bytes after it never decodes to the original message. -/
def Obligations.ExtensionLaw : Prop :=
  ∀ (m : Message) (out tail : Bytes), encodeMessage m = .ok out → tail ≠ [] →
    decodeBytes (out ++ tail) ≠ .ok m ∧
    ∀ m', decodeBytes (out ++ tail) = .ok m' → encodeMessage m' = .ok (out ++ tail)

/-- Where Malformed is raised (60_exceptions.md section 1, the spec's decision D8): exactly at a boundary that the scan
reaches with 63 entries parsed and at least 3 bytes unread, where the terminator test fails and it is not the case that
the count field is 63 and the length field exceeds what remains. -/
def Obligations.MalformedOnlyAfter63Entries : Prop :=
  ∀ b : Bytes, decodeBytes b = .err .malformed ↔
    ∃ (pos : Nat) (hdrs : List Entry) (y0 y1 y2 : Byte), Reached b pos hdrs ∧ hdrs.length = 63 ∧
      memRead b pos 3 = some [y0, y1, y2] ∧
      ¬ (prefixCnt y0 = 63 ∧ prefixPlen y0 y1 y2 ≥ b.length - pos - 3)

/-- Every other failure is TruncatedInput, and each unit produces only its own statuses: ENCODE the codes 0 to 3, DECODE
0, 4 and 5 (60_exceptions.md section 1, D13). -/
def Obligations.EachUnitProducesItsOwnCodes : Prop :=
  (∀ m : Message, (resultCode (encodeMessage m)).toNat ≤ 3) ∧
  (∀ b : Bytes, resultCode (decodeBytes b) = 0 ∨ resultCode (decodeBytes b) = 4 ∨ resultCode (decodeBytes b) = 5)

/-- Short buffers (41_decoder.md section 6, derived there): with fewer than 3 bytes TruncatedInput, with 3 bytes success exactly on
three zero bytes and else TruncatedInput. -/
def Obligations.ShortBuffers : Prop :=
  ∀ b : Bytes,
    (b.length < 3 → decodeBytes b = .err .truncatedInput) ∧
    (b.length = 3 → decodeBytes b = if b = [0, 0, 0] then .ok ⟨[], []⟩ else .err .truncatedInput)

/-- R10, R71: results are functions of the operand alone, not of earlier operations and not of the other unit; nothing but
the result is written. The unit is given its operand when it is idle; EncodeIsItsPseudocode and DecodeDeliversOneResult
say the same of a busy one. -/
def Obligations.ResultsDependOnTheOperandAlone : Prop :=
  (∀ s s' : State, s.enc = none → s'.enc = none → s.encPort = s'.encPort → ∃ r,
    exec .encode s = .next { s with encResults := s.encResults ++ [r] } ∧
    exec .encode s' = .next { s' with encResults := s'.encResults ++ [r] }) ∧
  (∀ s s' : State, s.dec = none → s'.dec = none → s.decPort = s'.decPort → ∃ r,
    exec .decode s = .next { s with decResults := s.decResults ++ [r] } ∧
    exec .decode s' = .next { s' with decResults := s'.decResults ++ [r] })

/-! ### The format rows -/

/-- Every well-formed instruction completes in every state: no fault and no refusal (log entries 2, 4 and 19). -/
def Obligations.EveryWellFormedInstructionCompletes : Prop :=
  ∀ (i : Instr) (s : State), i.wellFormed = true → ∃ t, exec i s = .next t

/-- A status that is none of the unit's is refused by name (log entry 15). -/
def Obligations.StatusOfTheOtherUnitIsRefused : Prop :=
  ∀ (u : Agent) (st : Status) (s : State), st.belongsTo u = false →
    exec (.status u st) s = .refused .statusOfOtherUnit

/-- The ENC unit writes the fields of an entry: each appends its bytes to `out` and nothing else of the machine changes
but the unit's own variables (40_encoder.md section 3; the fields one by one are log entry 2, the limits at this grain log
entry 3). -/
def Obligations.EncWritesEntryFields : Prop :=
  ∀ (s : State) (v : EncVars), s.enc = some v →
    (∀ n : BitVec 16, v.i < 63 → exec (.nameLen .enc n) s =
      .next { s with enc := some { v with out := v.out ++ [n.extractLsb' 8 8, n.extractLsb' 0 8], due := .name } }) ∧
    (∀ bytes : Bytes, bytes.length ≤ 65535 → exec (.name .enc bytes) s =
      .next { s with enc := some { v with out := v.out ++ bytes, due := .valueLen } }) ∧
    (∀ m : BitVec 16, exec (.valueLen .enc m) s =
      .next { s with enc := some { v with out := v.out ++ [m.extractLsb' 8 8, m.extractLsb' 0 8], due := .value } }) ∧
    (∀ bytes : Bytes, bytes.length ≤ 65535 → exec (.value .enc bytes) s =
      .next { s with enc := some { v with out := v.out ++ bytes, i := v.i + 1, due := .boundary } }) ∧
    (∀ nm val : Bytes, v.i < 63 → nm.length ≤ 65535 → val.length ≤ 65535 → exec (.headerEntry .enc nm val) s =
      .next { s with enc := some { v with
        out := v.out ++ ([BitVec.ofNat 8 (nm.length >>> 8), BitVec.ofNat 8 (nm.length &&& 0xFF)] ++ nm ++
          [BitVec.ofNat 8 (val.length >>> 8), BitVec.ofNat 8 (val.length &&& 0xFF)] ++ val)
        i := v.i + 1
        due := .boundary } })

/-- The ENC unit writes the size prefix, the payload and a whole message: each appends its bytes to `out` and nothing
else of the machine changes but the unit's own variables (40_encoder.md section 3; log entries 2 and 3). -/
def Obligations.EncWritesMessageFields : Prop :=
  ∀ (s : State) (v : EncVars), s.enc = some v →
    (∀ (cnt : BitVec 6) (plen : BitVec 18), exec (.sizePrefix .enc cnt plen) s =
      .next { s with enc := some { v with
        out := v.out ++ [(cnt ++ plen).extractLsb' 16 8, plen.extractLsb' 8 8, plen.extractLsb' 0 8]
        due := .payload } }) ∧
    (∀ bytes : Bytes, bytes.length ≤ 262144 → exec (.payload .enc bytes) s =
      .next { s with enc := some { v with out := v.out ++ bytes, due := .status } }) ∧
    (∀ (m : Message) (out : Bytes), encodeMessage m = .ok out → exec (.message .enc m) s =
      .next { s with enc := some { v with out := v.out ++ out, i := m.headers.length, due := .status } })

/-- A write beyond a limit ends the operation with the limit's error: nothing is delivered but the error (40_encoder.md
section 2, applied to one field: log entry 3). -/
def Obligations.EncWriteBeyondALimitRaises : Prop :=
  ∀ (s : State) (v : EncVars), s.enc = some v →
    (∀ n : BitVec 16, v.i ≥ 63 → exec (.nameLen .enc n) s =
      .next { s with enc := none, encResults := s.encResults ++ [.err .limitHeaders] }) ∧
    (∀ nm val : Bytes, v.i ≥ 63 → exec (.headerEntry .enc nm val) s =
      .next { s with enc := none, encResults := s.encResults ++ [.err .limitHeaders] }) ∧
    (∀ nm val : Bytes, v.i < 63 → nm.length > 65535 ∨ val.length > 65535 → exec (.headerEntry .enc nm val) s =
      .next { s with enc := none, encResults := s.encResults ++ [.err .limitField] }) ∧
    (∀ bytes : Bytes, bytes.length > 65535 →
      exec (.name .enc bytes) s = .next { s with enc := none, encResults := s.encResults ++ [.err .limitField] } ∧
      exec (.value .enc bytes) s = .next { s with enc := none, encResults := s.encResults ++ [.err .limitField] }) ∧
    (∀ bytes : Bytes, bytes.length > 262144 → exec (.payload .enc bytes) s =
      .next { s with enc := none, encResults := s.encResults ++ [.err .limitPayload] }) ∧
    (∀ (m : Message) (e : CodecError), encodeMessage m = .err e → exec (.message .enc m) s =
      .next { s with enc := none, encResults := s.encResults ++ [.err e] })

/-- The DEC unit reads the fields of an entry: the lengths with their overrun checks, the name, and the value, which
appends the entry, moves the cursor by `4 + N + M` and counts it (41_decoder.md section 3). Nothing else of the machine
changes but the unit's own variables. The fields one by one, and the field that is due next, are the model's choice (log
entry 2), and so are the values that `n`, `name` and `m` hold after an entry (log entry 18). -/
def Obligations.DecReadsEntryFields : Prop :=
  ∀ (s : State) (v : DecVars), s.dec = some v →
    (∀ n : BitVec 16, exec (.nameLen .dec n) s =
      if 2 + n.toNat + 2 > v.buffer.length - v.pos
      then .next { s with dec := none, decResults := s.decResults ++ [.err .truncatedInput] }
      else .next { s with dec := some { v with n := n, due := .name } }) ∧
    (∀ bytes : Bytes, exec (.name .dec bytes) s =
      .next { s with dec := some { v with name := bytes, due := .valueLen } }) ∧
    (∀ m : BitVec 16, exec (.valueLen .dec m) s =
      if 4 + v.n.toNat + m.toNat > v.buffer.length - v.pos
      then .next { s with dec := none, decResults := s.decResults ++ [.err .truncatedInput] }
      else .next { s with dec := some { v with m := m, due := .value } }) ∧
    (∀ bytes : Bytes, exec (.value .dec bytes) s =
      .next { s with dec := some { v with
        hdrs := v.hdrs ++ [⟨v.name, bytes⟩], pos := v.pos + 4 + v.n.toNat + v.m.toNat, k := v.k + 1,
        n := 0, name := [], m := 0, due := .boundary } }) ∧
    (∀ nm val : Bytes, exec (.headerEntry .dec nm val) s =
      if 4 + nm.length + val.length > v.buffer.length - v.pos
      then .next { s with dec := none, decResults := s.decResults ++ [.err .truncatedInput] }
      else .next { s with dec := some { v with
        hdrs := v.hdrs ++ [⟨nm, val⟩], pos := v.pos + 4 + nm.length + val.length, k := v.k + 1,
        n := 0, name := [], m := 0, due := .boundary } })

/-- The entry parse of 41_decoder.md section 3: at a boundary where a header entry is to be parsed, one transfer reads `N` at the cursor, ends with
TruncatedInput if the name and the value length do not fit, reads `M` after the name, ends with TruncatedInput if the
value does not fit, and else appends name and value, moves the cursor by `4 + N + M`, within the buffer, and counts the
entry. That an entry is one transfer, and that `due` says where it is to be parsed, is the model's choice (log entry 2). -/
def Obligations.AnEntryIsReadByItsRules : Prop :=
  ∀ (s : State) (rest : List HostEvent) (v : DecVars) (y0 y1 : Byte) (N : Nat),
    s.pending = .tick .dec .entry :: rest → s.dec = some v → v.due = .nameLen → v.pos + 3 ≤ v.buffer.length →
    v.buffer[v.pos]? = some y0 → v.buffer[v.pos + 1]? = some y1 → N = (y0.toNat <<< 8) ||| y1.toNat →
    (2 + N + 2 > v.buffer.length - v.pos →
      step s = .next { s with pending := rest, dec := none, decResults := s.decResults ++ [.err .truncatedInput] }) ∧
    (∀ (z0 z1 : Byte) (M : Nat), 2 + N + 2 ≤ v.buffer.length - v.pos →
      v.buffer[v.pos + 2 + N]? = some z0 → v.buffer[v.pos + 3 + N]? = some z1 → M = (z0.toNat <<< 8) ||| z1.toNat →
      (4 + N + M > v.buffer.length - v.pos →
        step s = .next { s with pending := rest, dec := none, decResults := s.decResults ++ [.err .truncatedInput] }) ∧
      (4 + N + M ≤ v.buffer.length - v.pos →
        ∃ v', step s = .next { s with pending := rest, dec := some v' } ∧ v'.buffer = v.buffer ∧
          v'.hdrs = v.hdrs ++ [⟨(v.buffer.drop (v.pos + 2)).take N, (v.buffer.drop (v.pos + 4 + N)).take M⟩] ∧
          v'.pos = v.pos + 4 + N + M ∧ v'.pos ≤ v.buffer.length ∧ v'.k = v.k + 1))

/-- The DEC unit reads the three bytes at a boundary as a size prefix: too few bytes, the terminator test, the cut-off
after 63 entries, else one more entry, in this order (41_decoder.md section 2, the spec's decisions D6, D7 and D8). That
the size prefix is a transfer of its own with `CNT` and `PLEN` as operands, and the field that is due next, are the model's
choice (log entry 2). -/
def Obligations.DecReadsTheSizePrefix : Prop :=
  ∀ (s : State) (v : DecVars) (cnt : BitVec 6) (plen : BitVec 18), s.dec = some v →
    exec (.sizePrefix .dec cnt plen) s =
      if v.buffer.length - v.pos < 3
      then .next { s with dec := none, decResults := s.decResults ++ [.err .truncatedInput] }
      else if cnt.toNat = v.k ∧ plen.toNat = v.buffer.length - v.pos - 3
      then .next { s with dec := some { v with due := .payload } }
      else if v.k = 63
      then .next { s with dec := none, decResults := s.decResults ++
        [.err (if cnt = 63 ∧ plen.toNat > v.buffer.length - v.pos - 3 then .truncatedInput else .malformed)] }
      else .next { s with dec := some { v with due := .nameLen } }

/-- The DEC unit reads the payload, and a whole message (41_decoder.md sections 2 and 4; log entry 2): the parts of the result, and
for a message the cursor and the count at its size prefix. -/
def Obligations.DecReadsPayloadAndMessage : Prop :=
  ∀ (s : State) (v : DecVars), s.dec = some v →
    (∀ bytes : Bytes, exec (.payload .dec bytes) s =
      .next { s with dec := some { v with payload := bytes, due := .status } }) ∧
    (∀ m : Message, exec (.message .dec m) s =
      .next { s with dec := some { v with
        hdrs := m.headers, k := m.headers.length, pos := v.buffer.length - 3 - m.payload.length,
        payload := m.payload, due := .status } })

/-- A status ends the operation: with OK the result is the value, with an error it is the error alone and the partial
work is gone; the unit is idle and nothing else changes (60_exceptions.md sections 1 and 2, 20_memory.md section 4; log
entry 15). -/
def Obligations.StatusEndsTheOperation : Prop :=
  (∀ (s : State) (v : EncVars), s.enc = some v →
    exec (.status .enc .ok) s = .next { s with enc := none, encResults := s.encResults ++ [.ok v.out] } ∧
    ∀ e : CodecError, e = .limitHeaders ∨ e = .limitPayload ∨ e = .limitField →
      exec (.status .enc (.error e)) s = .next { s with enc := none, encResults := s.encResults ++ [.err e] }) ∧
  (∀ (s : State) (v : DecVars), s.dec = some v →
    exec (.status .dec .ok) s = .next { s with dec := none, decResults := s.decResults ++ [.ok ⟨v.hdrs, v.payload⟩] } ∧
    ∀ e : CodecError, e = .truncatedInput ∨ e = .malformed →
      exec (.status .dec (.error e)) s = .next { s with dec := none, decResults := s.decResults ++ [.err e] })

/-- A format row on an idle unit changes nothing: there is no operation in progress to carry out (log entry 4). -/
def Obligations.FieldOnAnIdleUnitChangesNothing : Prop :=
  ∀ (i : Instr) (f : Format) (s : State), i.wellFormed = true →
    (i.position = .field .enc f → s.enc = none → exec i s = .next s) ∧
    (i.position = .field .dec f → s.dec = none → exec i s = .next s)

/-- One HEADER_ENTRY is its four fields one after another, in the order of 30_encoding.md section 2, for the unit that
writes it and for the unit that reads it. The transfers are the model's choice (log entry 2), that they change nothing on
an idle unit log entry 4, and that `n`, `name` and `m` are cleared after the entry log entry 18. -/
def Obligations.HeaderEntryIsItsFourFields : Prop :=
  ∀ (u : Agent) (s : State) (nm val : Bytes), nm.length ≤ 65535 → val.length ≤ 65535 →
    (∀ v, u = .enc → s.enc = some v → v.i < 63) →
    (∀ v, u = .dec → s.dec = some v → 4 + nm.length + val.length ≤ v.buffer.length - v.pos) →
    ∃ s1 s2 s3, exec (.nameLen u (BitVec.ofNat 16 nm.length)) s = .next s1 ∧
      exec (.name u nm) s1 = .next s2 ∧
      exec (.valueLen u (BitVec.ofNat 16 val.length)) s2 = .next s3 ∧
      exec (.value u val) s3 = exec (.headerEntry u nm val) s

/-! ### The whole machine -/

/-- The units share nothing (10_state.md section 1): what an instruction of one unit does leaves the other unit, its
results, both ports and the host's further events as they were, and the results already delivered stay. -/
def Obligations.AnInstructionTouchesOnlyItsUnit : Prop :=
  ∀ (i : Instr) (s t : State), exec i s = .next t →
    t.encPort = s.encPort ∧ t.decPort = s.decPort ∧ t.pending = s.pending ∧
    s.encResults <+: t.encResults ∧ s.decResults <+: t.decResults ∧
    ((i = .encode ∨ ∃ f, i.position = .field .enc f) → t.dec = s.dec ∧ t.decResults = s.decResults) ∧
    ((i = .decode ∨ ∃ f, i.position = .field .dec f) → t.enc = s.enc ∧ t.encResults = s.encResults)

/-- Soundness of the working variables is kept by every step (10_state.md section 3): what an ENCODE in progress has emitted is the
beginning of its operand's encoding, and a DECODE in progress stands at a boundary that the scan of its operand reaches.
Operations that are half done, and the field that is due, are the model's own (log entry 2), as is that an operand beyond
a limit is found at the first transfer (log entry 3). -/
def Obligations.StepKeepsTheWorkingVariablesSound : Prop :=
  ∀ s t : State, s.Sound → step s = .next t → t.Sound

/-- The state after reset is sound (70_reset_and_hazards.md section 1): both units are idle, so there are no working
variables (log entry 2). -/
def Obligations.ResetIsSound : Prop := State.reset.Sound

/-- From a sound state, a result that a step delivers for an operation in progress is the result of the whole operation
on that operation's operand: `encodeMessage` of it, or `decodeBytes` of it (00_scope.md section 3, 20_memory.md section 4;
the transfers are log entry 2). -/
def Obligations.ATransferDeliversTheWholeResult : Prop :=
  ∀ (s t : State) (g : Grain) (rest : List HostEvent), s.Sound →
    (∀ v, s.enc = some v → s.pending = .tick .enc g :: rest → step s = .next t → t.enc = none →
      t = { s with pending := rest, enc := none, encResults := s.encResults ++ [encodeMessage v.operand] }) ∧
    (∀ v, s.dec = some v → s.pending = .tick .dec g :: rest → step s = .next t → t.dec = none →
      t = { s with pending := rest, dec := none, decResults := s.decResults ++ [decodeBytes v.buffer] })

/-- ENCODE carried out transfer by transfer is ENCODE: begun in any state and given 255 transfers of any one grain, the
machine is where the atomic operation leaves it (00_scope.md section 3; 40_encoder.md sections 3 and 4; log entry 2). In
both a unit that was busy gives the result of its previous operand first (log entry 8). -/
def Obligations.SerialEncodeIsEncode : Prop :=
  ∀ (s : State) (g : Grain),
    steps 256
      { s with pending := .start .enc ⟨.held, .held⟩ :: List.replicate 255 (.tick .enc g) } =
    exec .encode { s with pending := [] }

/-- DECODE carried out transfer by transfer is DECODE, on every buffer, errors included: begun in any state and given
318 transfers of any one grain, the machine is where the atomic operation leaves it (00_scope.md section 3; 41_decoder.md
sections 2 to 4; at most 64 boundaries; log entry 2). In both a unit that was busy gives the result of its previous operand
first (log entry 8). -/
def Obligations.SerialDecodeIsDecode : Prop :=
  ∀ (s : State) (g : Grain),
    steps 319
      { s with pending := .start .dec ⟨.held, .held⟩ :: List.replicate 318 (.tick .dec g) } =
    exec .decode { s with pending := [] }

/-- The two units may work in any interleaving (10_state.md section 1): after both have begun, any order of transfers, of
any grains, with at least 255 of the ENC unit and 318 of the DEC unit, leaves both results, each that of its own operand
alone. The transfers and their grain are log entry 2, their order is that of the host's events (log entry 9), and a unit
that was busy has given the result of its previous operand first (log entry 8). -/
def Obligations.AnyInterleavingDeliversBothResults : Prop :=
  ∀ (s : State) (ticks : List (Agent × Grain)),
    255 ≤ ticks.countP (fun x => x.1 == .enc) → 318 ≤ ticks.countP (fun x => x.1 == .dec) →
    steps (ticks.length + 2)
      { s with pending := .start .enc ⟨.held, .held⟩ :: .start .dec ⟨.held, .held⟩ ::
          ticks.map (fun x => .tick x.1 x.2) } =
    .next { s with enc := none, dec := none, pending := [],
                   encResults := (s.finish .enc).encResults ++ [encodeMessage s.encPort],
                   decResults := (s.finish .dec).decResults ++ [decodeBytes s.decPort] }
end

