-- ==== Sys2Proof/Laws/Wire.lean ====
section
/-! SUPPORT. What the number formats, the reads and the size prefix of `Sys2Proof/Decode.lean` do, once for each: the
bit operations as arithmetic, and each reader as the inverse of its writer. -/

namespace Sys2Proof

/-! ### Bit operations as arithmetic -/

theorem shift8_or (a b : Nat) (hb : b < 256) : (a <<< 8) ||| b = a * 256 + b := by
  rw [← Nat.shiftLeft_add_eq_or_of_lt (by simpa using hb), Nat.shiftLeft_eq]

theorem shift16_or (a b : Nat) (hb : b < 65536) : (a <<< 16) ||| b = a * 65536 + b := by
  rw [← Nat.shiftLeft_add_eq_or_of_lt (by simpa using hb), Nat.shiftLeft_eq]

theorem shift2_or (a b : Nat) (hb : b < 4) : (a <<< 2) ||| b = a * 4 + b := by
  rw [← Nat.shiftLeft_add_eq_or_of_lt (by simpa using hb), Nat.shiftLeft_eq]

theorem and255 (n : Nat) : n &&& 0xFF = n % 256 := Nat.and_two_pow_sub_one_eq_mod n 8

theorem and3 (n : Nat) : n &&& 3 = n % 4 := Nat.and_two_pow_sub_one_eq_mod n 2

/-! ### `be16` and `rd16` -/

theorem be16_eq (n : Nat) : be16 n = [BitVec.ofNat 8 (n / 256), BitVec.ofNat 8 (n % 256)] := by
  simp [be16, and255, Nat.shiftRight_eq_div_pow]

@[simp] theorem be16_length (n : Nat) : (be16 n).length = 2 := rfl

theorem be16_of_bytes (x y : Byte) : be16 (x.toNat * 256 + y.toNat) = [x, y] := by
  have hx := x.isLt
  have hy := y.isLt
  simp only [be16_eq, List.cons.injEq, and_true]
  constructor <;> (apply BitVec.eq_of_toNat_eq; simp; omega)

theorem memRead_eq_some {b x : Bytes} {a n : Nat} :
    memRead b a n = some x ↔ a + n ≤ b.length ∧ x = (b.drop a).take n := by
  unfold memRead
  split <;> simp_all [eq_comm]

theorem memRead_eq_none {b : Bytes} {a n : Nat} : memRead b a n = none ↔ b.length < a + n := by
  unfold memRead
  split <;> simp_all

/-- A read succeeds exactly on the bytes that stand at the address. -/
theorem memRead_iff_append {b x : Bytes} {a n : Nat} :
    memRead b a n = some x ↔ a + n ≤ b.length ∧ x.length = n ∧ b.drop a = x ++ b.drop (a + n) := by
  rw [memRead_eq_some]
  constructor
  · rintro ⟨h, rfl⟩
    refine ⟨h, by simp; omega, ?_⟩
    rw [← List.drop_drop, List.take_append_drop]
  · rintro ⟨h, hl, he⟩
    refine ⟨h, ?_⟩
    rw [he, List.take_append_of_le_length (by omega), List.take_of_length_le (by omega)]

theorem memRead_length {b x : Bytes} {a n : Nat} (h : memRead b a n = some x) : x.length = n :=
  (memRead_iff_append.1 h).2.1

theorem two_bytes {x : Bytes} (h : x.length = 2) : ∃ y z, x = [y, z] := by
  match x, h with
  | [y, z], _ => exact ⟨y, z, rfl⟩

theorem three_bytes {x : Bytes} (h : x.length = 3) : ∃ y0 y1 y2, x = [y0, y1, y2] := by
  match x, h with
  | [y0, y1, y2], _ => exact ⟨y0, y1, y2, rfl⟩

/-- `rd16` reads exactly the numbers whose `be16` stands at the index (R8, R26). -/
theorem rd16_eq_some {b : Bytes} {i n : Nat} :
    rd16 b i = some n ↔ n < 65536 ∧ i + 2 ≤ b.length ∧ b.drop i = be16 n ++ b.drop (i + 2) := by
  unfold rd16
  cases h : memRead b i 2 with
  | none =>
    rw [memRead_eq_none] at h
    simp; omega
  | some x =>
    obtain ⟨y, z, rfl⟩ := two_bytes (memRead_length h)
    obtain ⟨hl, -, he⟩ := memRead_iff_append.1 h
    have hy := y.isLt
    have hz := z.isLt
    simp only [Option.some.injEq, shift8_or _ _ hz, hl, true_and]
    constructor
    · rintro rfl
      exact ⟨by omega, by rw [be16_of_bytes]; exact he⟩
    · rintro ⟨hn, hb⟩
      rw [he] at hb
      have hb := List.append_inj_left' hb rfl
      rw [be16_eq] at hb
      simp only [List.cons.injEq, and_true] at hb
      obtain ⟨rfl, rfl⟩ := hb
      simp; omega

theorem rd16_eq_none {b : Bytes} {i : Nat} : rd16 b i = none ↔ b.length < i + 2 := by
  unfold rd16
  cases h : memRead b i 2 with
  | none => simpa [memRead_eq_none] using h
  | some x =>
    obtain ⟨y, z, rfl⟩ := two_bytes (memRead_length h)
    have := (memRead_eq_some.1 h).1
    simp; omega

/-- Three bytes are read exactly where they stand. -/
theorem memRead_three {b : Bytes} {pos : Nat} {y0 y1 y2 : Byte} :
    memRead b pos 3 = some [y0, y1, y2] ↔ b[pos]? = some y0 ∧ b[pos+1]? = some y1 ∧ b[pos+2]? = some y2 := by
  rw [memRead_iff_append]
  constructor
  · rintro ⟨h1, -, h2⟩
    have g : ∀ j, b[pos + j]? = ([y0, y1, y2] ++ b.drop (pos + 3))[j]? := by
      intro j; rw [← h2, List.getElem?_drop]
    exact ⟨by simpa using g 0, by simpa using g 1, by simpa using g 2⟩
  · rintro ⟨h0, h1, h2⟩
    obtain ⟨l0, e0⟩ := List.getElem?_eq_some_iff.1 h0
    obtain ⟨l1, e1⟩ := List.getElem?_eq_some_iff.1 h1
    obtain ⟨l2, e2⟩ := List.getElem?_eq_some_iff.1 h2
    refine ⟨by omega, rfl, ?_⟩
    rw [List.drop_eq_getElem_cons l0, List.drop_eq_getElem_cons l1, List.drop_eq_getElem_cons l2, e0, e1, e2]
    rfl

/-- Two bytes at an index are read most significant first (R26). -/
theorem rd16_of_bytes {b : Bytes} {pos : Nat} {x y : Byte} (h0 : b[pos]? = some x) (h1 : b[pos+1]? = some y) :
    rd16 b pos = some ((x.toNat <<< 8) ||| y.toNat) := by
  obtain ⟨l0, e0⟩ := List.getElem?_eq_some_iff.1 h0
  obtain ⟨l1, e1⟩ := List.getElem?_eq_some_iff.1 h1
  have hx := x.isLt
  have hy := y.isLt
  rw [shift8_or _ _ hy]
  refine rd16_eq_some.2 ⟨by omega, by omega, ?_⟩
  rw [be16_of_bytes, List.drop_eq_getElem_cons l0, List.drop_eq_getElem_cons l1, e0, e1]
  rfl

/-! ### The size prefix -/

theorem composePrefix_eq (c p : Nat) (hp : p ≤ Config.plenFieldMax) :
    composePrefix c p = [BitVec.ofNat 8 (c * 4 + p / 65536), BitVec.ofNat 8 (p / 256 % 256), BitVec.ofNat 8 (p % 256)] := by
  have : p >>> 16 < 4 := by simp only [Nat.shiftRight_eq_div_pow, Config.plenFieldMax] at *; omega
  rw [composePrefix, shift2_or _ _ this]
  simp [and255, Nat.shiftRight_eq_div_pow]

@[simp] theorem composePrefix_length (c p : Nat) : (composePrefix c p).length = 3 := rfl

theorem prefixCnt_eq (y0 : Byte) : prefixCnt y0 = y0.toNat / 4 := by
  simp [prefixCnt, Nat.shiftRight_eq_div_pow]

theorem prefixPlen_eq (y0 y1 y2 : Byte) :
    prefixPlen y0 y1 y2 = y0.toNat % 4 * 65536 + y1.toNat * 256 + y2.toNat := by
  have h1 := y1.isLt
  have h2 := y2.isLt
  rw [prefixPlen, Nat.or_assoc, shift8_or _ _ (by omega), shift16_or _ _ (by omega), and3]
  omega

theorem prefixCnt_le (y0 : Byte) : prefixCnt y0 ≤ 63 := by
  have := y0.isLt
  rw [prefixCnt_eq]; omega

theorem prefixPlen_le (y0 y1 y2 : Byte) : prefixPlen y0 y1 y2 ≤ Config.plenFieldMax := by
  have h1 := y1.isLt
  have h2 := y2.isLt
  rw [prefixPlen_eq]; simp only [Config.plenFieldMax]; omega

/-- Composing what was extracted gives the bytes back (R45, R47 to R49). -/
theorem composePrefix_of_bytes (y0 y1 y2 : Byte) :
    composePrefix (prefixCnt y0) (prefixPlen y0 y1 y2) = [y0, y1, y2] := by
  rw [composePrefix_eq _ _ (prefixPlen_le ..), prefixCnt_eq, prefixPlen_eq]
  have h0 := y0.isLt
  have h1 := y1.isLt
  have h2 := y2.isLt
  simp only [List.cons.injEq, and_true]
  refine ⟨?_, ?_, ?_⟩ <;> (apply BitVec.eq_of_toNat_eq; simp; omega)

/-- Extracting from composed bytes gives the count and the length back (R117). -/
theorem extract_composePrefix {c p : Nat} {y0 y1 y2 : Byte} (hc : c ≤ Config.hdrMax) (hp : p ≤ Config.plenFieldMax)
    (h : composePrefix c p = [y0, y1, y2]) : prefixCnt y0 = c ∧ prefixPlen y0 y1 y2 = p := by
  rw [composePrefix_eq _ _ hp] at h
  simp only [List.cons.injEq, and_true] at h
  obtain ⟨rfl, rfl, rfl⟩ := h
  simp only [Config.hdrMax, Config.plenFieldMax] at *
  rw [prefixCnt_eq, prefixPlen_eq]
  simp; omega

/-- The size prefix of a payload of exactly 262144 bytes (R47, R75). -/
theorem composePrefix_payloadMax (c : Nat) (hc : c ≤ Config.hdrMax) :
    composePrefix c Config.payloadMax = composePrefix (c ||| 1) 0 := by
  simp only [Config.hdrMax] at hc
  have : ∀ c : Fin 64, composePrefix c.1 Config.payloadMax = composePrefix (c.1 ||| 1) 0 := by decide
  exact this ⟨c, by omega⟩

end Sys2Proof
end

