-- ==== Sys2Proof/Laws/Scan.lean ====
section
/-! SUPPORT. What the entry parser, one visit of a boundary and the whole scan do, said once: each as the inverse of the
encoder's bytes (`41_decoder.md` R82 to R93, `45_codec_laws.md` R106 to R112). -/

namespace Sys2Proof

/-! ### Entries -/

@[simp] theorem entryBytes_length (e : Entry) : (entryBytes e).length = e.size := by
  simp [entryBytes, Entry.size]; omega

@[simp] theorem entriesBytes_length (es : List Entry) : (entriesBytes es).length = entriesSize es := by
  induction es with
  | nil => rfl
  | cons e es ih => simp [entriesBytes, entriesSize, ih]

theorem entriesBytes_append (es fs : List Entry) : entriesBytes (es ++ fs) = entriesBytes es ++ entriesBytes fs := by
  induction es with
  | nil => rfl
  | cons e es ih => simp [entriesBytes, ih]

theorem entriesSize_append (es fs : List Entry) : entriesSize (es ++ fs) = entriesSize es + entriesSize fs := by
  induction es with
  | nil => simp [entriesSize]
  | cons e es ih => simp [entriesSize, ih]; omega

theorem Entry.four_le_size (e : Entry) : 4 ≤ e.size := by simp [Entry.size]; omega

@[simp] theorem messageBytes_length (m : Message) :
    (messageBytes m).length = entriesSize m.headers + 3 + m.payload.length := by
  simp [messageBytes]; omega

theorem drop_append_add {b x y : Bytes} {a n : Nat} (h : b.drop a = x ++ y) (hx : x.length = n) : b.drop (a + n) = y := by
  rw [← List.drop_drop, h, ← hx, List.drop_left]

theorem pos_add_le_of_drop {b x y : Bytes} {a : Nat} (h : b.drop a = x ++ y) (hx : 0 < x.length) :
    a + x.length + y.length = b.length := by
  have := congrArg List.length h
  simp at this; omega

/-- The parser finds exactly the entries whose bytes stand at the position (R41, R88 to R91). -/
theorem parseEntry_eq_some {b : Bytes} {pos : Nat} {e : Entry} :
    parseEntry b pos = some e ↔
      e.inLimits ∧ pos + e.size ≤ b.length ∧ b.drop pos = entryBytes e ++ b.drop (pos + e.size) := by
  constructor
  · intro h
    unfold parseEntry at h
    dsimp only at h
    split at h
    · cases h
    rename_i N hN
    obtain ⟨hN1, hN2, hN3⟩ := rd16_eq_some.1 hN
    split at h
    · cases h
    split at h
    · rename_i name M hname hM
      obtain ⟨hn1, hn2, hn3⟩ := memRead_iff_append.1 hname
      obtain ⟨hM1, hM2, hM3⟩ := rd16_eq_some.1 hM
      split at h
      · cases h
      split at h
      · rename_i value hv
        obtain ⟨hv1, hv2, hv3⟩ := memRead_iff_append.1 hv
        cases h
        simp only [Entry.inLimits, Config.fieldMax, Entry.size, entryBytes]
        refine ⟨by omega, by omega, ?_⟩
        rw [hN3, hn3, hM3, show pos + 2 + N + 2 = pos + 4 + N by omega, hv3, ← hn2, ← hv2]
        simp [List.append_assoc, Nat.add_assoc]
      · cases h
    · cases h
  · rintro ⟨⟨h1, h2⟩, h3, h4⟩
    obtain ⟨name, value⟩ := e
    simp only [Entry.size, Config.fieldMax, entryBytes, List.append_assoc] at *
    have hN : rd16 b pos = some name.length := by
      refine rd16_eq_some.2 ⟨by omega, by omega, ?_⟩
      rw [drop_append_add h4 (n := 2) rfl, ← h4]
    have h5 := drop_append_add h4 (n := 2) rfl
    have hname : memRead b (pos + 2) name.length = some name := by
      refine memRead_iff_append.2 ⟨by omega, rfl, ?_⟩
      rw [drop_append_add h5 rfl, h5]
    have h6 := drop_append_add h5 (n := name.length) rfl
    have hM : rd16 b (pos + 2 + name.length) = some value.length := by
      refine rd16_eq_some.2 ⟨by omega, by omega, ?_⟩
      rw [drop_append_add h6 (n := 2) rfl, h6]
    have h7 := drop_append_add h6 (n := 2) rfl
    have hv : memRead b (pos + 4 + name.length) value.length = some value := by
      rw [show pos + 4 + name.length = pos + 2 + name.length + 2 by omega]
      refine memRead_iff_append.2 ⟨by omega, rfl, ?_⟩
      rw [drop_append_add h7 rfl, h7]
    unfold parseEntry
    simp only [hN, hname, hM, hv]
    rw [if_neg (by omega), if_neg (by omega)]

/-- Nothing is parsed exactly where the entry's fields would run past the end (R89, R91). -/
theorem parseEntry_at_append {b rest : Bytes} {pos : Nat} {e : Entry} (he : e.inLimits)
    (h : b.drop pos = entryBytes e ++ rest) : parseEntry b pos = some e := by
  refine parseEntry_eq_some.2 ⟨he, ?_, ?_⟩
  · have := pos_add_le_of_drop h (by simp [Entry.size])
    simp at this; omega
  · rw [drop_append_add h (by simp), h]

/-- A name and value length that run past the end (R89). -/
theorem parseEntry_name_overrun {b : Bytes} {pos N : Nat} (h : rd16 b pos = some N) (hN : 2 + N + 2 > b.length - pos) :
    parseEntry b pos = none := by
  unfold parseEntry; simp only [h]; rw [if_pos hN]

/-- A value that runs past the end (R91). -/
theorem parseEntry_value_overrun {b : Bytes} {pos N M : Nat} (h : rd16 b pos = some N) (h' : rd16 b (pos + 2 + N) = some M)
    (hM : 4 + N + M > b.length - pos) : parseEntry b pos = none := by
  unfold parseEntry; simp only [h, h']
  cases memRead b (pos + 2) N with
  | none => simp
  | some x => simp only; rw [if_pos hM]; simp

/-- The entry where its fields fit (R88 to R92). -/
theorem parseEntry_of_fields {b : Bytes} {pos N M : Nat} (hp : pos ≤ b.length) (h : rd16 b pos = some N) (h' : rd16 b (pos + 2 + N) = some M)
    (hM : 4 + N + M ≤ b.length - pos) :
    parseEntry b pos = some ⟨(b.drop (pos + 2)).take N, (b.drop (pos + 4 + N)).take M⟩ := by
  have h1 : memRead b (pos + 2) N = some _ := memRead_eq_some.2 ⟨by omega, rfl⟩
  have h2 : memRead b (pos + 4 + N) M = some _ := memRead_eq_some.2 ⟨by omega, rfl⟩
  unfold parseEntry; simp only [h, h', h1, h2]
  rw [if_neg (by omega), if_neg (by omega)]

/-- Parsing needs only the bytes from the position on. -/
theorem parseEntry_drop (b : Bytes) (pos : Nat) : parseEntry (b.drop pos) 0 = parseEntry b pos := by
  have key : ∀ e, parseEntry (b.drop pos) 0 = some e ↔ parseEntry b pos = some e := by
    intro e
    rw [parseEntry_eq_some, parseEntry_eq_some]
    have := e.four_le_size
    simp only [List.length_drop, Nat.zero_add, List.drop_drop]
    constructor
    · rintro ⟨a, b, c⟩; exact ⟨a, by omega, c⟩
    · rintro ⟨a, b, c⟩; exact ⟨a, by omega, c⟩
  cases h : parseEntry (b.drop pos) 0 with
  | some e => exact ((key e).1 h).symm
  | none =>
    cases h' : parseEntry b pos with
    | none => rfl
    | some e => rw [(key e).2 h'] at h; cases h

/-! ### One visit -/

/-- The three bytes at the start of an entry, read as a size prefix, make the terminator test exactly where the entry is a false stop (R112). -/
theorem terminator_entryBytes {e : Entry} (he : e.inLimits) {rest : Bytes} {y0 y1 y2 : Byte} {more : Bytes}
    (h : entryBytes e ++ rest = y0 :: y1 :: y2 :: more) (k R : Nat) :
    terminator (prefixCnt y0) (prefixPlen y0 y1 y2) k R ↔ e.falseStop k R := by
  obtain ⟨name, value⟩ := e
  obtain ⟨h1, h2⟩ := he
  simp only [Config.fieldMax] at h1 h2
  simp only [terminator, Entry.falseStop, Entry.thirdByte, prefixCnt_eq, prefixPlen_eq, Nat.shiftRight_eq_div_pow]
  simp only [entryBytes, be16_eq] at h h1 h2 ⊢
  cases name with
  | nil =>
    simp only [List.length_nil, List.cons_append, List.nil_append, List.cons.injEq] at h
    obtain ⟨rfl, rfl, rfl, -⟩ := h
    have e1 : value.length / 256 % 256 = value.length / 256 := by omega
    simp [e1]
  | cons y ys =>
    simp only [List.cons_append, List.nil_append, List.cons.injEq] at h
    obtain ⟨rfl, rfl, rfl, -⟩ := h
    have hy := y.isLt
    simp only [List.length_cons] at *
    have e1 : (ys.length + 1) / 256 % 256 / 4 = (ys.length + 1) / 1024 := by omega
    have e2 : (ys.length + 1) / 256 % 4 * 65536 + (ys.length + 1) % 256 * 256 = (ys.length + 1) % 1024 * 256 := by omega
    simp [e1, e2]

/-- A visit of a boundary with at least 3 bytes unread, case by case (R83). -/
theorem visit_of_bytes {b : Bytes} {pos k : Nat} {y0 y1 y2 : Byte} (hr : memRead b pos 3 = some [y0, y1, y2]) :
    visit b pos k =
      if terminator (prefixCnt y0) (prefixPlen y0 y1 y2) k (b.length - pos) then .accept (b.drop (pos + 3))
      else if k = Config.hdrMax then .fail (cutOffError (prefixCnt y0) (prefixPlen y0 y1 y2) (b.length - pos))
      else match parseEntry b pos with
        | some e => .entry e
        | none => .fail .truncatedInput := by
  have h : visit b pos k = visit b pos k := rfl
  conv_lhs at h => unfold visit
  simp only [hr] at h
  exact h.symm

/-- A visit of a boundary with fewer than 3 bytes unread (R84). -/
theorem visit_few {b : Bytes} {pos k : Nat} (h : b.length - pos < 3) : visit b pos k = .fail .truncatedInput := by
  have : memRead b pos 3 = none := memRead_eq_none.2 (by omega)
  unfold visit; simp only [this]

/-- A visit accepts exactly where the rest of the buffer is the size prefix of `k` entries and a payload (R85, R86). -/
theorem visit_eq_accept {b p : Bytes} {pos k : Nat} :
    visit b pos k = .accept p ↔
      k ≤ Config.hdrMax ∧ p.length ≤ Config.plenFieldMax ∧ b.drop pos = composePrefix k p.length ++ p := by
  constructor
  · intro h
    unfold visit at h
    dsimp only at h
    split at h
    · rename_i y0 y1 y2 hr
      obtain ⟨hl, -, hd⟩ := memRead_iff_append.1 hr
      split at h
      · rename_i ht
        cases h
        obtain ⟨hc, hp⟩ := ht
        have hlen : (b.drop (pos + 3)).length = prefixPlen y0 y1 y2 := by rw [hp]; simp; omega
        refine ⟨hc ▸ prefixCnt_le y0, hlen ▸ prefixPlen_le .., ?_⟩
        rw [hlen, ← hc, composePrefix_of_bytes, hd]
      · split at h
        · cases h
        · split at h <;> cases h
    · cases h
  · rintro ⟨hk, hp, h⟩
    obtain ⟨y0, y1, y2, hy⟩ := three_bytes (composePrefix_length k p.length)
    obtain ⟨hc, hpl⟩ := extract_composePrefix hk hp hy
    have hlen := pos_add_le_of_drop h (by simp)
    simp only [composePrefix_length] at hlen
    have hd : b.drop (pos + 3) = p := drop_append_add h rfl
    have hr : memRead b pos 3 = some [y0, y1, y2] :=
      memRead_iff_append.2 ⟨by omega, rfl, by rw [hd, h, hy]⟩
    unfold visit
    simp only [hr]
    rw [if_pos ⟨hc, by omega⟩, hd]

/-- A visit parses an entry exactly where one stands, it is no false stop and fewer than 63 are parsed (R83, R92, R112). -/
theorem visit_eq_entry {b : Bytes} {pos k : Nat} {e : Entry} :
    visit b pos k = .entry e ↔
      k ≠ Config.hdrMax ∧ parseEntry b pos = some e ∧ ¬ e.falseStop k (b.length - pos) := by
  have key : ∀ {y0 y1 y2 : Byte}, memRead b pos 3 = some [y0, y1, y2] → parseEntry b pos = some e →
      (terminator (prefixCnt y0) (prefixPlen y0 y1 y2) k (b.length - pos) ↔ e.falseStop k (b.length - pos)) := by
    intro y0 y1 y2 hr hp
    obtain ⟨he, -, hd⟩ := parseEntry_eq_some.1 hp
    obtain ⟨-, -, hd'⟩ := memRead_iff_append.1 hr
    exact terminator_entryBytes he (hd.symm.trans hd') k _
  constructor
  · intro h
    unfold visit at h
    dsimp only at h
    split at h
    · rename_i y0 y1 y2 hr
      split at h
      · cases h
      rename_i ht
      split at h
      · cases h
      rename_i hk
      split at h
      · rename_i e' hp
        cases h
        exact ⟨hk, hp, fun hf => ht ((key hr hp).2 hf)⟩
      · cases h
    · cases h
  · rintro ⟨hk, hp, hf⟩
    have hlen := (parseEntry_eq_some.1 hp).2.1
    have := e.four_le_size
    cases hr : memRead b pos 3 with
    | none => rw [memRead_eq_none] at hr; omega
    | some x =>
      obtain ⟨y0, y1, y2, rfl⟩ := three_bytes (memRead_length hr)
      unfold visit
      simp only [hr]
      rw [if_neg (fun ht => hf ((key hr hp).1 ht)), if_neg hk]
      simp only [hp]

/-- A visit where an entry stands that is a false stop accepts, with everything after three bytes as payload (R99, R109). -/
theorem visit_falseStop {b : Bytes} {pos k : Nat} {e : Entry} (hp : parseEntry b pos = some e)
    (hf : e.falseStop k (b.length - pos)) : visit b pos k = .accept (b.drop (pos + 3)) := by
  obtain ⟨he, hlen, hd⟩ := parseEntry_eq_some.1 hp
  have := e.four_le_size
  cases hr : memRead b pos 3 with
  | none => rw [memRead_eq_none] at hr; omega
  | some x =>
    obtain ⟨y0, y1, y2, rfl⟩ := three_bytes (memRead_length hr)
    obtain ⟨-, -, hd'⟩ := memRead_iff_append.1 hr
    unfold visit
    simp only [hr]
    rw [if_pos ((terminator_entryBytes he (hd.symm.trans hd') k _).2 hf)]

/-! ### The scan, one pass at a time -/

theorem decodeFrom_accept {b p : Bytes} {passes pos : Nat} {hdrs : List Entry} (h : visit b pos hdrs.length = .accept p) :
    decodeFrom b (passes + 1) pos hdrs = .ok ⟨hdrs, p⟩ := by
  rw [decodeFrom, h]

theorem decodeFrom_fail {b : Bytes} {passes pos : Nat} {hdrs : List Entry} {e : CodecError}
    (h : visit b pos hdrs.length = .fail e) : decodeFrom b (passes + 1) pos hdrs = .err e := by
  rw [decodeFrom, h]

theorem decodeFrom_entry {b : Bytes} {passes pos : Nat} {hdrs : List Entry} {e : Entry}
    (h : visit b pos hdrs.length = .entry e) :
    decodeFrom b (passes + 1) pos hdrs = decodeFrom b passes (pos + e.size) (hdrs ++ [e]) := by
  rw [decodeFrom, h]

/-- After 63 entries no entry is parsed (R87), so the scan never runs out of passes (R101). -/
theorem visit_at_hdrMax_not_entry {b : Bytes} {pos : Nat} (e : Entry) : visit b pos Config.hdrMax ≠ .entry e :=
  fun h => (visit_eq_entry.1 h).1 rfl

/-! ### False stops -/

theorem noFalseStop_iff (k tail : Nat) (es : List Entry) :
    noFalseStop k tail es = true ↔ ∀ (j : Nat) (e : Entry), es[j]? = some e → ¬ e.falseStop (k + j) (entriesSize (es.drop j) + tail) := by
  induction es generalizing k with
  | nil => simp [noFalseStop]
  | cons e es ih =>
    simp only [noFalseStop, Bool.and_eq_true, Bool.not_eq_true', decide_eq_false_iff_not, ih]
    constructor
    · rintro ⟨h1, h2⟩ j e' he
      cases j with
      | zero => simp at he; subst he; simpa using h1
      | succ j =>
        have := h2 j e' (by simpa using he)
        rw [show k + (j+1) = k + 1 + j by omega]; simpa using this
    · intro h
      refine ⟨by simpa using h 0 e (by simp), fun j e' he => ?_⟩
      have := h (j+1) e' (by simpa using he)
      rw [show k + (j+1) = k + 1 + j by omega] at this; simpa using this

/-- `ambiguous` says what R112 says. -/
theorem Message.ambiguous_eq_false (m : Message) : m.ambiguous = false ↔ ∀ k, ¬ m.falseStopAt k := by
  simp only [Message.ambiguous, Bool.not_eq_false', noFalseStop_iff, Message.falseStopAt, not_exists, not_and]
  constructor
  · intro h k e he; have := h k e he; simpa [Nat.add_assoc] using this
  · intro h k e he; have := h k e he; simpa [Nat.add_assoc] using this

theorem Message.falseStopAt_lt {m : Message} {k} (h : m.falseStopAt k) : k < m.headers.length := by
  obtain ⟨e, he, -⟩ := h
  exact (List.getElem?_eq_some_iff.1 he).1

end Sys2Proof
end

