-- ==== Sys2Proof/Laws/State.lean ====
section
/-! SUPPORT. What each update of the state leaves in each field. -/

namespace Sys2Proof.Machine

@[simp] theorem State.deliverEnc_enc (s : State) (r : Result Bytes) :
    (s.deliverEnc r).enc = none := rfl
@[simp] theorem State.deliverEnc_dec (s : State) (r : Result Bytes) :
    (s.deliverEnc r).dec = s.dec := rfl
@[simp] theorem State.deliverEnc_encPort (s : State) (r : Result Bytes) :
    (s.deliverEnc r).encPort = s.encPort := rfl
@[simp] theorem State.deliverEnc_decPort (s : State) (r : Result Bytes) :
    (s.deliverEnc r).decPort = s.decPort := rfl
@[simp] theorem State.deliverEnc_pending (s : State) (r : Result Bytes) :
    (s.deliverEnc r).pending = s.pending := rfl
@[simp] theorem State.deliverEnc_encResults (s : State) (r : Result Bytes) :
    (s.deliverEnc r).encResults = s.encResults ++ [r] := rfl
@[simp] theorem State.deliverEnc_decResults (s : State) (r : Result Bytes) :
    (s.deliverEnc r).decResults = s.decResults := rfl

@[simp] theorem State.deliverDec_enc (s : State) (r : Result Message) :
    (s.deliverDec r).enc = s.enc := rfl
@[simp] theorem State.deliverDec_dec (s : State) (r : Result Message) :
    (s.deliverDec r).dec = none := rfl
@[simp] theorem State.deliverDec_encPort (s : State) (r : Result Message) :
    (s.deliverDec r).encPort = s.encPort := rfl
@[simp] theorem State.deliverDec_decPort (s : State) (r : Result Message) :
    (s.deliverDec r).decPort = s.decPort := rfl
@[simp] theorem State.deliverDec_pending (s : State) (r : Result Message) :
    (s.deliverDec r).pending = s.pending := rfl
@[simp] theorem State.deliverDec_encResults (s : State) (r : Result Message) :
    (s.deliverDec r).encResults = s.encResults := rfl
@[simp] theorem State.deliverDec_decResults (s : State) (r : Result Message) :
    (s.deliverDec r).decResults = s.decResults ++ [r] := rfl

@[simp] theorem State.assertReset_enc (s : State) :
    (s.assertReset).enc = none := rfl
@[simp] theorem State.assertReset_dec (s : State) :
    (s.assertReset).dec = none := rfl
@[simp] theorem State.assertReset_encPort (s : State) :
    (s.assertReset).encPort = s.encPort := rfl
@[simp] theorem State.assertReset_decPort (s : State) :
    (s.assertReset).decPort = s.decPort := rfl
@[simp] theorem State.assertReset_pending (s : State) :
    (s.assertReset).pending = s.pending := rfl
@[simp] theorem State.assertReset_encResults (s : State) :
    (s.assertReset).encResults = s.encResults := rfl
@[simp] theorem State.assertReset_decResults (s : State) :
    (s.assertReset).decResults = s.decResults := rfl

/-! ### Ending the operation in progress -/

@[simp] theorem State.finish_enc_idle {s : State} (h : s.enc = none) : s.finish .enc = s := by simp [State.finish, h]
@[simp] theorem State.finish_dec_idle {s : State} (h : s.dec = none) : s.finish .dec = s := by simp [State.finish, h]

theorem State.finish_enc_busy {s : State} {v : EncVars} (h : s.enc = some v) :
    s.finish .enc = s.deliverEnc (encodeMessage v.operand) := by simp [State.finish, h]
theorem State.finish_dec_busy {s : State} {v : DecVars} (h : s.dec = some v) :
    s.finish .dec = s.deliverDec (decodeBytes v.buffer) := by simp [State.finish, h]

/-- After `finish` the unit is idle, and at most its list of results has grown by one. -/
theorem State.finish_enc_cases (s : State) :
    (s.enc = none ∧ s.finish .enc = s) ∨ ∃ v, s.enc = some v ∧ s.finish .enc = s.deliverEnc (encodeMessage v.operand) := by
  cases h : s.enc with
  | none => exact .inl ⟨rfl, State.finish_enc_idle h⟩
  | some v => exact .inr ⟨v, rfl, State.finish_enc_busy h⟩

theorem State.finish_dec_cases (s : State) :
    (s.dec = none ∧ s.finish .dec = s) ∨ ∃ v, s.dec = some v ∧ s.finish .dec = s.deliverDec (decodeBytes v.buffer) := by
  cases h : s.dec with
  | none => exact .inl ⟨rfl, State.finish_dec_idle h⟩
  | some v => exact .inr ⟨v, rfl, State.finish_dec_busy h⟩

@[simp] theorem State.finish_enc_enc (s : State) : (s.finish .enc).enc = none := by
  rcases s.finish_enc_cases with ⟨h, e⟩ | ⟨v, -, e⟩
  · rw [e, h]
  · rw [e]; rfl
@[simp] theorem State.finish_enc_dec (s : State) : (s.finish .enc).dec = s.dec := by
  rcases s.finish_enc_cases with ⟨-, e⟩ | ⟨v, -, e⟩ <;> simp [e]
@[simp] theorem State.finish_enc_encPort (s : State) : (s.finish .enc).encPort = s.encPort := by
  rcases s.finish_enc_cases with ⟨-, e⟩ | ⟨v, -, e⟩ <;> simp [e]
@[simp] theorem State.finish_enc_decPort (s : State) : (s.finish .enc).decPort = s.decPort := by
  rcases s.finish_enc_cases with ⟨-, e⟩ | ⟨v, -, e⟩ <;> simp [e]
@[simp] theorem State.finish_enc_pending (s : State) : (s.finish .enc).pending = s.pending := by
  rcases s.finish_enc_cases with ⟨-, e⟩ | ⟨v, -, e⟩ <;> simp [e]
@[simp] theorem State.finish_enc_decResults (s : State) : (s.finish .enc).decResults = s.decResults := by
  rcases s.finish_enc_cases with ⟨-, e⟩ | ⟨v, -, e⟩ <;> simp [e]
theorem State.finish_enc_encResults (s : State) : s.encResults <+: (s.finish .enc).encResults := by
  rcases s.finish_enc_cases with ⟨-, e⟩ | ⟨v, -, e⟩ <;> simp [e]

@[simp] theorem State.finish_dec_dec (s : State) : (s.finish .dec).dec = none := by
  rcases s.finish_dec_cases with ⟨h, e⟩ | ⟨v, -, e⟩
  · rw [e, h]
  · rw [e]; rfl
@[simp] theorem State.finish_dec_enc (s : State) : (s.finish .dec).enc = s.enc := by
  rcases s.finish_dec_cases with ⟨-, e⟩ | ⟨v, -, e⟩ <;> simp [e]
@[simp] theorem State.finish_dec_encPort (s : State) : (s.finish .dec).encPort = s.encPort := by
  rcases s.finish_dec_cases with ⟨-, e⟩ | ⟨v, -, e⟩ <;> simp [e]
@[simp] theorem State.finish_dec_decPort (s : State) : (s.finish .dec).decPort = s.decPort := by
  rcases s.finish_dec_cases with ⟨-, e⟩ | ⟨v, -, e⟩ <;> simp [e]
@[simp] theorem State.finish_dec_pending (s : State) : (s.finish .dec).pending = s.pending := by
  rcases s.finish_dec_cases with ⟨-, e⟩ | ⟨v, -, e⟩ <;> simp [e]
@[simp] theorem State.finish_dec_encResults (s : State) : (s.finish .dec).encResults = s.encResults := by
  rcases s.finish_dec_cases with ⟨-, e⟩ | ⟨v, -, e⟩ <;> simp [e]
theorem State.finish_dec_decResults (s : State) : s.decResults <+: (s.finish .dec).decResults := by
  rcases s.finish_dec_cases with ⟨-, e⟩ | ⟨v, -, e⟩ <;> simp [e]

/-! ### Beginning an operation -/

@[simp] theorem State.begin_enc_enc (s : State) : (s.begin .enc).enc = some (EncVars.start s.encPort) := rfl
@[simp] theorem State.begin_enc_encResults (s : State) : (s.begin .enc).encResults = (s.finish .enc).encResults := rfl
@[simp] theorem State.begin_enc_dec (s : State) : (s.begin .enc).dec = s.dec := s.finish_enc_dec
@[simp] theorem State.begin_enc_encPort (s : State) : (s.begin .enc).encPort = s.encPort := s.finish_enc_encPort
@[simp] theorem State.begin_enc_decPort (s : State) : (s.begin .enc).decPort = s.decPort := s.finish_enc_decPort
@[simp] theorem State.begin_enc_pending (s : State) : (s.begin .enc).pending = s.pending := s.finish_enc_pending
@[simp] theorem State.begin_enc_decResults (s : State) : (s.begin .enc).decResults = s.decResults := s.finish_enc_decResults

@[simp] theorem State.begin_dec_dec (s : State) : (s.begin .dec).dec = some (DecVars.start s.decPort) := rfl
@[simp] theorem State.begin_dec_decResults (s : State) : (s.begin .dec).decResults = (s.finish .dec).decResults := rfl
@[simp] theorem State.begin_dec_enc (s : State) : (s.begin .dec).enc = s.enc := s.finish_dec_enc
@[simp] theorem State.begin_dec_encPort (s : State) : (s.begin .dec).encPort = s.encPort := s.finish_dec_encPort
@[simp] theorem State.begin_dec_decPort (s : State) : (s.begin .dec).decPort = s.decPort := s.finish_dec_decPort
@[simp] theorem State.begin_dec_pending (s : State) : (s.begin .dec).pending = s.pending := s.finish_dec_pending
@[simp] theorem State.begin_dec_encResults (s : State) : (s.begin .dec).encResults = s.encResults := s.finish_dec_encResults

/-- Taking events off and ending an operation do not touch one another. -/
theorem State.finish_with_pending (s : State) (u : Agent) (r : List HostEvent) :
    State.finish { s with pending := r } u = { s.finish u with pending := r } := by
  cases u
  · cases h : s.enc <;> simp [State.finish, h, State.deliverEnc]
  · cases h : s.dec <;> simp [State.finish, h, State.deliverDec]

/-! ### The operands of a line -/

/-- What a line writes depends on the results alone. -/
theorem State.bytesOf_congr {s t : State} (x : BytesTerm) (h1 : s.encResults = t.encResults)
    (h2 : s.decResults = t.decResults) : s.bytesOf x = t.bytesOf x := by
  induction x with
  | append x y hx hy => simp only [State.bytesOf, hx, hy]
  | slice x a b hx => simp only [State.bytesOf, hx]
  | _ => simp only [State.bytesOf, State.resultEntry, h1, h2]

/-- Presenting operands sets the two ports and nothing else. -/
theorem State.present_cases {s t : State} {ops : Operands} (h : s.present ops = some t) :
    ∃ m b, s.msgOperand ops.msg = some m ∧ s.bufOperand ops.buf = some b ∧ t = { s with encPort := m, decPort := b } := by
  unfold State.present at h
  split at h
  · rename_i m b hm hb; cases h; exact ⟨m, b, hm, hb, rfl⟩
  · cases h

/-- A line is presented at once, or after both units have ended their operations. -/
theorem State.presentLine_cases {s t : State} {ops : Operands} (h : s.presentLine ops = some t) :
    s.present ops = some t ∨ (s.present ops = none ∧ ((s.finish .enc).finish .dec).present ops = some t) := by
  unfold State.presentLine at h
  split at h
  · rename_i t' ht; cases h; exact .inl ht
  · rename_i hn; exact .inr ⟨hn, h⟩

theorem State.reset_enc : State.reset.enc = none := rfl
theorem State.reset_dec : State.reset.dec = none := rfl

/-- What a transfer of the ENC unit can leave: an idle unit unchanged, new working variables, or the result delivered. -/
theorem State.moveEnc_cases (s : State) (f : EncVars → Move EncVars Bytes) :
    (s.enc = none ∧ s.moveEnc f = s) ∨
    (∃ v v', s.enc = some v ∧ f v = .go v' ∧ s.moveEnc f = { s with enc := some v' }) ∨
    (∃ v r, s.enc = some v ∧ f v = .done r ∧ s.moveEnc f = s.deliverEnc r) := by
  unfold State.moveEnc
  cases h : s.enc with
  | none => exact .inl ⟨rfl, rfl⟩
  | some v =>
    cases hf : f v with
    | go v' => exact .inr (.inl ⟨v, v', rfl, hf, by simp [hf]⟩)
    | done r => exact .inr (.inr ⟨v, r, rfl, hf, by simp [hf]⟩)

/-- What a transfer of the DEC unit can leave: an idle unit unchanged, new working variables, or the result delivered. -/
theorem State.moveDec_cases (s : State) (f : DecVars → Move DecVars Message) :
    (s.dec = none ∧ s.moveDec f = s) ∨
    (∃ v v', s.dec = some v ∧ f v = .go v' ∧ s.moveDec f = { s with dec := some v' }) ∨
    (∃ v r, s.dec = some v ∧ f v = .done r ∧ s.moveDec f = s.deliverDec r) := by
  unfold State.moveDec
  cases h : s.dec with
  | none => exact .inl ⟨rfl, rfl⟩
  | some v =>
    cases hf : f v with
    | go v' => exact .inr (.inl ⟨v, v', rfl, hf, by simp [hf]⟩)
    | done r => exact .inr (.inr ⟨v, r, rfl, hf, by simp [hf]⟩)

@[simp] theorem State.moveEnc_idle {s : State} (f : EncVars → Move EncVars Bytes) (h : s.enc = none) :
    s.moveEnc f = s := by simp [State.moveEnc, h]

@[simp] theorem State.moveDec_idle {s : State} (f : DecVars → Move DecVars Message) (h : s.dec = none) :
    s.moveDec f = s := by simp [State.moveDec, h]

theorem State.moveEnc_go {s : State} {v v' : EncVars} {f : EncVars → Move EncVars Bytes} (h : s.enc = some v)
    (hf : f v = .go v') : s.moveEnc f = { s with enc := some v' } := by simp [State.moveEnc, h, hf]

theorem State.moveDec_go {s : State} {v v' : DecVars} {f : DecVars → Move DecVars Message} (h : s.dec = some v)
    (hf : f v = .go v') : s.moveDec f = { s with dec := some v' } := by simp [State.moveDec, h, hf]

theorem State.moveEnc_done {s : State} {v : EncVars} {r : Result Bytes} {f : EncVars → Move EncVars Bytes}
    (h : s.enc = some v) (hf : f v = .done r) : s.moveEnc f = s.deliverEnc r := by simp [State.moveEnc, h, hf]

theorem State.moveDec_done {s : State} {v : DecVars} {r : Result Message} {f : DecVars → Move DecVars Message}
    (h : s.dec = some v) (hf : f v = .done r) : s.moveDec f = s.deliverDec r := by simp [State.moveDec, h, hf]

end Sys2Proof.Machine
end

