-- ==== Sys2Proof/Laws/Ops.lean ====
section
/-! SUPPORT. The shared operations: the canonical form of a buffer as memory, the checks of ENCODE, and the two
functions' first unfoldings. -/

namespace Sys2Proof.Machine

/-! ### The buffer as memory -/

theorem Memory.wf_cellsFrom (b : Bytes) (a : Nat) : Memory.wf (Memory.cellsFrom a b) = true := by
  induction b generalizing a with
  | nil => rfl
  | cons x xs ih =>
    cases xs with
    | nil => rfl
    | cons y ys => simpa [Memory.cellsFrom, Memory.wf] using ih (a + 1)

/-- Every buffer is a memory in canonical form, so every `emit` keeps the form. -/
theorem Memory.wf_cells (b : Bytes) : Memory.wf (Memory.cells b) = true := Memory.wf_cellsFrom b 0

theorem Memory.wf_emit (out v : Bytes) : Memory.wf (Memory.cells (emit out v)) = true := Memory.wf_cells _

theorem Memory.cellsFrom_inj {a : Nat} {b c : Bytes} (h : Memory.cellsFrom a b = Memory.cellsFrom a c) : b = c := by
  induction b generalizing a c with
  | nil => cases c with
    | nil => rfl
    | cons y ys => simp [Memory.cellsFrom] at h
  | cons x xs ih =>
    cases c with
    | nil => simp [Memory.cellsFrom] at h
    | cons y ys =>
      simp only [Memory.cellsFrom, List.cons.injEq, Prod.mk.injEq, true_and] at h
      rw [h.1, ih h.2]

/-- Equal memories are equal buffers. -/
theorem Memory.cells_inj {b c : Bytes} (h : Memory.cells b = Memory.cells c) : b = c := Memory.cellsFrom_inj h

/-! ### The checks of ENCODE -/

theorem fieldOverLimit_eq_false {e : Entry} : fieldOverLimit e = false ↔ e.inLimits := by
  simp [fieldOverLimit, Entry.inLimits]

/-- The checks pass exactly within the limits (R16, R61 to R64). -/
theorem limitError_eq_none {m : Message} : limitError m = none ↔ m.limits := by
  unfold limitError Message.limits
  split
  · simp; omega
  · split
    · simp; omega
    · split
      · rename_i h
        simp only [List.any_eq_true] at h
        obtain ⟨e, he, hf⟩ := h
        simp only [reduceCtorEq, false_iff]
        rintro ⟨-, -, h3⟩
        rw [fieldOverLimit_eq_false.2 (h3 e he)] at hf
        cases hf
      · rename_i h1 h2 h3
        simp only [List.any_eq_true, not_exists, not_and, Bool.not_eq_true] at h3
        simp only [true_iff]
        exact ⟨by omega, by omega, fun e he => fieldOverLimit_eq_false.1 (h3 e he)⟩

theorem encodeMessage_of_limitError {m : Message} {e : CodecError} (h : limitError m = some e) :
    encodeMessage m = .err e := by
  simp [encodeMessage, h]

/-- Within the limits ENCODE gives the bytes of the whole buffer (R69). -/
theorem encodeMessage_of_limits {m : Message} (h : m.limits) : encodeMessage m = .ok (messageBytes m) := by
  simp [encodeMessage, limitError_eq_none.2 h, emit, messageBytes]

end Sys2Proof.Machine
end

