-- ==== Sys2Proof/Laws/Run.lean ====
section
/-! SUPPORT. Several steps in a row. -/

namespace Sys2Proof.Machine

theorem steps_next {s t : State} (k : Nat) (h : step s = .next t) : steps (k + 1) s = steps k t := by
  simp only [steps, h]

/-- `steps` is the host's own run of this machine. -/
theorem steps_eq_run (k : Nat) (s : State) : steps k s = Host.Core.run Sys2Proof.core k s := by
  have next (M : Host.Core) (k : Nat) (s t : M.State) (h : M.step s = .next t) : M.run (k + 1) s = M.run k t := by
    simp only [Host.Core.run, h]
  have refused (M : Host.Core) (k : Nat) (s : M.State) (r : M.Refusal) (h : M.step s = .refused r) :
      M.run (k + 1) s = .refused r := by
    simp only [Host.Core.run, h]
  induction k generalizing s with
  | zero => rfl
  | succ k ih =>
    cases h : step s with
    | next t => exact (steps_next k h).trans ((ih t).trans (next core k s t h).symm)
    | fault r => cases r
    | refused r =>
      have e : steps (k + 1) s = .refused r := by simp only [steps, h]
      exact e.trans (refused core k s r h).symm
end Sys2Proof.Machine
end

