-- ==== Sys2Proof/Tests/Slice0.lean ====
section
/-! SUPPORT. The model's own tests: ill-formed terms that are refused, words written out from the spec's encodings,
one small step per instruction (expected values from `95_test_vectors.md`), and a witness for the hypotheses of every
obligation that has some. Character codes are ASCII (log entry 20). -/

namespace Sys2Proof.Tests
open Sys2Proof.Machine

set_option Elab.async false

/-! ### States to test on -/

/-- The state after reset with a Message and a buffer at the ports. -/
def ports (m : Message) (b : Bytes) : State := { State.reset with encPort := m, decPort := b }

/-- The state after reset with these events pending. -/
def withEvents (es : List HostEvent) : State := { State.reset with pending := es }

/-- An ENCODE of `m` in progress. -/
def encoding (m : Message) (i : Nat) (out : Bytes) (due : EncDue) : State :=
  { State.reset with enc := some ⟨m, i, out, due⟩ }

/-- A DECODE of `b` in progress, no entry parsed, with the given next field. -/
def decoding (b : Bytes) (due : DecDue) : State :=
  { State.reset with dec := some { DecVars.start b with due := due } }

/-- The message of vector V3: one header `a`: `b`, payload `xyz`. -/
def msgV3 : Message := ⟨[⟨[0x61], [0x62]⟩], [0x78, 0x79, 0x7a]⟩

/-- The 12 bytes of vector V3. -/
def bytesV3 : Bytes := [0x00, 0x01, 0x61, 0x00, 0x01, 0x62, 0x04, 0x00, 0x03, 0x78, 0x79, 0x7a]

/-- `z(n)`: n zero bytes. -/
def zeros (n : Nat) : Bytes := List.replicate n 0

@[simp] theorem zeros_length (n : Nat) : (zeros n).length = n := List.length_replicate

/-- A machine in the middle of a DECODE of V3: its name length is read, the name is due. -/
def decodingV3 : State :=
  { State.reset with dec := some { DecVars.start bytesV3 with n := 1, due := .name } }

/-! ### WellFormed: an ill-formed term for each check -/

theorem test_wf_headerEntry_long_name : (Instr.headerEntry .enc (zeros 65536) []).wellFormed = false := by
  simp [Instr.wellFormed]

theorem test_wf_headerEntry_long_value : (Instr.headerEntry .dec [] (zeros 65536)).wellFormed = false := by
  simp [Instr.wellFormed]

theorem test_wf_name_too_long : (Instr.name .enc (zeros 65536)).wellFormed = false := by simp [Instr.wellFormed]

theorem test_wf_value_too_long : (Instr.value .dec (zeros 65536)).wellFormed = false := by simp [Instr.wellFormed]

theorem test_wf_payload_enc_too_long : (Instr.payload .enc (zeros 262145)).wellFormed = false := by
  simp [Instr.wellFormed, Agent.payloadMax]

theorem test_wf_payload_dec_too_long : (Instr.payload .dec (zeros 262144)).wellFormed = false := by
  simp [Instr.wellFormed, Agent.payloadMax]

/-- The 262144-byte payload can be written (R63) but is no message's payload on the wire (R98). -/
theorem test_wf_message_payload : (Instr.message .enc ⟨[], zeros 262144⟩).wellFormed = false := by
  simp [Instr.wellFormed, Message.decodable]

theorem test_wf_message_headers :
    (Instr.message .enc ⟨List.replicate 64 ⟨[], []⟩, []⟩).wellFormed = false := by
  simp [Instr.wellFormed, Message.decodable, Message.limits]

/-- `mB` of vector V9 is ambiguous. -/
theorem test_wf_message_ambiguous : (Instr.message .dec ⟨[⟨[0x00], zeros 251⟩], []⟩).wellFormed = false := by
  simp [Instr.wellFormed, Message.decodable, Message.ambiguous, noFalseStop, Entry.falseStop, Entry.thirdByte,
    entriesSize, Entry.size]

theorem test_wf_status_enc : (Instr.status .enc (.error .malformed)).wellFormed = false := by decide

theorem test_wf_status_dec : (Instr.status .dec (.error .limitField)).wellFormed = false := by decide

/-- One well-formed instruction of every row, every field at its largest. -/
theorem test_wf_accepts :
    Instr.encode.wellFormed = true ∧ Instr.decode.wellFormed = true ∧
    (Instr.headerEntry .enc (zeros 65535) (zeros 65535)).wellFormed = true ∧
    (Instr.nameLen .dec 65535).wellFormed = true ∧ (Instr.name .enc (zeros 65535)).wellFormed = true ∧
    (Instr.valueLen .dec 65535).wellFormed = true ∧ (Instr.value .dec (zeros 65535)).wellFormed = true ∧
    (Instr.sizePrefix .dec 63 262143).wellFormed = true ∧ (Instr.payload .enc (zeros 262144)).wellFormed = true ∧
    (Instr.payload .dec (zeros 262143)).wellFormed = true ∧ (Instr.message .dec msgV3).wellFormed = true ∧
    (Instr.status .enc (.error .limitField)).wellFormed = true ∧
    (Instr.status .dec (.error .malformed)).wellFormed = true := by
  refine ⟨rfl, rfl, ?_, rfl, ?_, rfl, ?_, rfl, ?_, ?_, by decide, rfl, rfl⟩ <;>
    simp [Instr.wellFormed, Agent.payloadMax]

/-! ### Decoding: words written out from the encodings -/

/-- The tags of R57. -/
theorem test_decode_tags : decodeTableWord 8 0 = some .encode ∧ decodeTableWord 8 1 = some .decode := by decide

/-- Bits 7 to 1 of the byte that carries the tag are not examined (the table's mask is 1). -/
theorem test_decode_tag_is_bit_0 : decode .op [0xfe] = .instr .encode [] ∧ decode .op [0x7f] = .instr .decode [] := by decide

/-- R41, R42: `N` first, big-endian; entry bytes of vector V3. -/
theorem test_decode_headerEntry :
    decode (.field .dec .headerEntry) [0x00, 0x01, 0x61, 0x00, 0x02, 0x62, 0x63, 0x99] =
      .instr (.headerEntry .dec [0x61] [0x62, 0x63]) [0x99] := by decide

/-- R42: `0x0405` is 1029 (the name length of vector V10). -/
theorem test_decode_nameLen : decodeTableWord 16 0x0405 = some (.nameLen .dec 1029) := by decide

theorem test_decode_name : decode (.field .enc .name) [0x61, 0x00] = .instr (.name .enc [0x61, 0x00]) [] := by decide

/-- R44: `0x00f7` is 247 (the value length of vector V10). -/
theorem test_decode_valueLen : decode (.field .dec .valueLen) [0x00, 0xf7, 0x01] = .instr (.valueLen .dec 247) [0x01] := by decide

theorem test_decode_value : decode (.field .dec .value) [0xff] = .instr (.value .dec [0xff]) [] := by decide

/-- R45, R49: 24 bits `111110 11 11111111 11111111` are `CNT` 62 and `PLEN` 262143 (vector V8). -/
theorem test_decode_sizePrefix : decodeTableWord 24 0xfbffff = some (.sizePrefix .dec 62 262143) := by decide

/-- R47, R75: for `p` = 262144 the composed bytes read as count 1 and length 0 (vector V8). -/
theorem test_prefix_of_2_18 : composePrefix 0 262144 = [0x04, 0x00, 0x00] ∧
    decode (.field .dec .sizePrefix) [0x04, 0x00, 0x00] = .instr (.sizePrefix .dec 1 0) [] := by decide

theorem test_decode_payload : decode (.field .dec .payload) [0x55] = .instr (.payload .dec [0x55]) [] := by decide

/-- R40: the 12 bytes of vector V3 are its message. -/
theorem test_decode_message : decode (.field .dec .message) bytesV3 = .instr (.message .dec msgV3) [] := by decide

/-- R128: the six codes; 6 and 7 are never produced. -/
theorem test_decode_status :
    decode (.field .enc .status) [0x02] = .instr (.status .enc (.error .limitPayload)) [] ∧
    decode (.field .dec .status) [0x04] = .instr (.status .dec (.error .truncatedInput)) [] ∧
    decode (.field .dec .status) [0x07] = .rejected .unusedStatus ∧
    decode (.field .enc .status) [0x04] = .rejected .statusOfOtherUnit := by decide

/-- Bytes that end too early are refused by name. -/
theorem test_decode_rejects : decode .op [] = .rejected .tooShort ∧
    decode (.field .dec .nameLen) [0x00] = .rejected .tooShort ∧
    decode (.field .dec .sizePrefix) [0x04, 0x00] = .rejected .tooShort ∧
    decode (.field .dec .message) [0x00, 0x00, 0x01] = .rejected (.notAMessage .truncatedInput) := by decide

/-- A 32-bit word is a header entry of empty name and value (vector V4). -/
theorem test_decode_table_32 : decodeTableWord 32 0 = some (.headerEntry .dec [] []) := by decide

/-- The words of one instruction of each format, from the encodings. -/
theorem test_encode_words :
    encode (.headerEntry .enc [0x61] [0x62]) = [0x00, 0x01, 0x61, 0x00, 0x01, 0x62] ∧
    encode (.sizePrefix .enc 5 65536) = [0x15, 0x00, 0x00] ∧
    encode (.message .enc msgV3) = bytesV3 ∧
    encode (.status .dec (.error .malformed)) = [0x05] := by decide

/-! ### The first step after reset -/

/-- A tag placed by `withFetchWord` runs as the first instruction: ENCODE of the empty Message (vector V2). -/
theorem test_fetch_encode : step (State.reset.withFetchWord 8 0) =
    .next { State.reset with encResults := [.ok [0x00, 0x00, 0x00]] } := rfl

/-- DECODE of the empty buffer (vector V15b). -/
theorem test_fetch_decode : step (State.reset.withFetchWord 8 1) =
    .next { State.reset with decResults := [.err .truncatedInput] } := rfl

/-- The three placed bytes are read as a size prefix: `00 00 00` with nothing after it is one (R102). -/
theorem test_fetch_sizePrefix : step (State.reset.withFetchWord 24 0) =
    .next (decoding [0x00, 0x00, 0x00] .payload) := rfl

/-- Two placed bytes are read as a name length, and the operation ends: no value length follows (R89). -/
theorem test_fetch_nameLen : step (State.reset.withFetchWord 16 0) =
    .next { State.reset with decResults := [.err .truncatedInput] } := rfl

/-- Four placed zero bytes are read as an entry of empty name and value (R92). -/
theorem test_fetch_headerEntry : step (State.reset.withFetchWord 32 0) =
    .next { State.reset with dec := some { DecVars.start [0, 0, 0, 0] with pos := 4, k := 1, hdrs := [⟨[], []⟩] } } := rfl

/-! ### One step per instruction -/

/-- Vector V3. -/
theorem test_encode_V3 : exec .encode (ports msgV3 []) = .next { ports msgV3 [] with encResults := [.ok bytesV3] } := rfl

/-- Vector V17: a duplicate name is encoded like any other (R77). -/
theorem test_encode_V17 : encodeMessage ⟨[⟨[0x61], [0x31]⟩, ⟨[0x61], [0x32]⟩], []⟩ =
    .ok [0x00, 0x01, 0x61, 0x00, 0x01, 0x31, 0x00, 0x01, 0x61, 0x00, 0x01, 0x32, 0x08, 0x00, 0x00] := rfl

/-- Vector V3d. -/
theorem test_decode_V3d : exec .decode (ports ⟨[], []⟩ bytesV3) =
    .next { ports ⟨[], []⟩ bytesV3 with decResults := [.ok msgV3] } := rfl

/-- Vectors V15g and V15l: a value that runs past the end; a wrong count. -/
theorem test_decode_V15 : decodeBytes [0x00, 0x00, 0x02, 0x55] = .err .truncatedInput ∧
    decodeBytes [0x00, 0x01, 0x61, 0x00, 0x01, 0x62, 0x00, 0x00, 0x03, 0x78, 0x79, 0x7a] = .err .truncatedInput := by decide

theorem test_headerEntry_enc : exec (.headerEntry .enc [0x61] [0x62]) (encoding msgV3 0 [] .boundary) =
    .next (encoding msgV3 1 [0x00, 0x01, 0x61, 0x00, 0x01, 0x62] .boundary) := rfl

theorem test_headerEntry_dec : exec (.headerEntry .dec [0x61] [0x62]) (decoding bytesV3 .nameLen) =
    .next { State.reset with dec := some { DecVars.start bytesV3 with pos := 6, k := 1, hdrs := [⟨[0x61], [0x62]⟩] } } := rfl

theorem test_nameLen_enc : exec (.nameLen .enc 1029) (encoding msgV3 0 [] .boundary) =
    .next (encoding msgV3 0 [0x04, 0x05] .name) := rfl

/-- R89: in 12 bytes a name of 9 does not fit before a value length; one of 8 does. -/
theorem test_nameLen_dec :
    exec (.nameLen .dec 9) (decoding bytesV3 .nameLen) = .next { State.reset with decResults := [.err .truncatedInput] } ∧
    exec (.nameLen .dec 8) (decoding bytesV3 .nameLen) =
      .next { State.reset with dec := some { DecVars.start bytesV3 with n := 8, due := .name } } := ⟨rfl, rfl⟩

theorem test_name_enc : exec (.name .enc [0x61]) (encoding msgV3 0 [0x00, 0x01] .name) =
    .next (encoding msgV3 0 [0x00, 0x01, 0x61] .valueLen) := rfl

theorem test_name_dec : exec (.name .dec [0x61]) decodingV3 =
    .next { State.reset with dec := some { DecVars.start bytesV3 with n := 1, name := [0x61], due := .valueLen } } := rfl

theorem test_valueLen_enc : exec (.valueLen .enc 0x0102) (encoding msgV3 0 [0x00, 0x01, 0x61] .valueLen) =
    .next (encoding msgV3 0 [0x00, 0x01, 0x61, 0x01, 0x02] .value) := rfl

/-- R91: with a name of 1 in 12 bytes a value of 8 does not fit; one of 7 does. -/
theorem test_valueLen_dec :
    exec (.valueLen .dec 8) decodingV3 = .next { State.reset with decResults := [.err .truncatedInput] } ∧
    exec (.valueLen .dec 7) decodingV3 =
      .next { State.reset with dec := some { DecVars.start bytesV3 with n := 1, m := 7, due := .value } } := ⟨rfl, rfl⟩

theorem test_value_enc : exec (.value .enc [0x62]) (encoding msgV3 0 [0x00, 0x01, 0x61, 0x00, 0x01] .value) =
    .next (encoding msgV3 1 [0x00, 0x01, 0x61, 0x00, 0x01, 0x62] .boundary) := rfl

/-- R92: the entry is appended, the cursor moves by 4 + N + M, the count by 1. -/
theorem test_value_dec : exec (.value .dec [0x62])
      { State.reset with dec := some { DecVars.start bytesV3 with n := 1, name := [0x61], m := 1, due := .value } } =
    .next { State.reset with dec := some { DecVars.start bytesV3 with pos := 6, k := 1, hdrs := [⟨[0x61], [0x62]⟩] } } := rfl

/-- R67, vector V8: count 5 and length 65536 are `15 00 00`. -/
theorem test_sizePrefix_enc : exec (.sizePrefix .enc 5 65536) (encoding msgV3 1 [] .boundary) =
    .next (encoding msgV3 1 [0x15, 0x00, 0x00] .payload) := rfl

/-- R85: at the first boundary of V3, count 0 with length 9 is the size prefix; length 353 is not (trace of V3d). -/
theorem test_sizePrefix_dec :
    exec (.sizePrefix .dec 0 9) (decoding bytesV3 .boundary) = .next (decoding bytesV3 .payload) ∧
    exec (.sizePrefix .dec 0 353) (decoding bytesV3 .boundary) = .next (decoding bytesV3 .nameLen) := ⟨rfl, rfl⟩

theorem test_payload_enc : exec (.payload .enc [0x78]) (encoding msgV3 1 [0x04] .payload) =
    .next (encoding msgV3 1 [0x04, 0x78] .status) := rfl

theorem test_payload_dec : exec (.payload .dec [0x78]) (decoding bytesV3 .payload) =
    .next { State.reset with dec := some { DecVars.start bytesV3 with payload := [0x78], due := .status } } := rfl

theorem test_message_enc : exec (.message .enc msgV3) (encoding msgV3 0 [] .boundary) =
    .next (encoding msgV3 1 bytesV3 .status) := rfl

/-- The size prefix of V3 stands at index 6. -/
theorem test_message_dec : exec (.message .dec msgV3) (decoding bytesV3 .boundary) =
    .next { State.reset with dec := some { DecVars.start bytesV3 with
      pos := 6, k := 1, hdrs := msgV3.headers, payload := msgV3.payload, due := .status } } := rfl

theorem test_status_enc : exec (.status .enc .ok) (encoding msgV3 1 bytesV3 .status) =
    .next { State.reset with encResults := [.ok bytesV3] } := rfl

/-- An error is delivered without a value (R131). -/
theorem test_status_dec : exec (.status .dec (.error .malformed)) (decoding bytesV3 .boundary) =
    .next { State.reset with decResults := [.err .malformed] } := rfl

/-! ### Lines that use earlier results, and busy units -/

/-- Program P5, line 2: ENCODE of a Message with the bytes of an earlier ENCODE as its payload. -/
theorem test_line_P5 :
    step { State.reset with
      encResults := [.ok [0x00, 0x01, 0x6b, 0x00, 0x01, 0x76, 0x04, 0x00, 0x02, 0x68, 0x69]]
      pending := [.request [0x00] ⟨.build [.entry (.lit [0x74]) (.lit [0x78])] (.encoded 0), .held⟩] } =
    .next { State.reset with
      encPort := ⟨[⟨[0x74], [0x78]⟩], [0x00, 0x01, 0x6b, 0x00, 0x01, 0x76, 0x04, 0x00, 0x02, 0x68, 0x69]⟩
      encResults := [.ok [0x00, 0x01, 0x6b, 0x00, 0x01, 0x76, 0x04, 0x00, 0x02, 0x68, 0x69],
        .ok [0x00, 0x01, 0x74, 0x00, 0x01, 0x78, 0x04, 0x00, 0x0b,
          0x00, 0x01, 0x6b, 0x00, 0x01, 0x76, 0x04, 0x00, 0x02, 0x68, 0x69]] } := rfl

/-- R12: a second ENCODE (of the empty Message, vector V2) while V3 is being encoded; both results come, in this order. -/
theorem test_busy_encode : exec .encode (encoding msgV3 0 [] .boundary) =
    .next { State.reset with encResults := [.ok bytesV3, .ok [0x00, 0x00, 0x00]] } := rfl

/-! ### The 63-entry boundary -/

/-- 63 entries counted and 6 bytes unread, as at the last boundary of vectors V6d and V16 (the entries left out). -/
def at63 : State :=
  { State.reset with dec := some { DecVars.start [0xfc, 0x00, 0x03, 0x78, 0x79, 0x7a] with k := 63 } }

/-- Vectors V16e and V16b: Malformed for a smaller length or another count. -/
theorem test_malformed_at_63 :
    exec (.sizePrefix .dec 63 2) at63 = .next { State.reset with decResults := [.err .malformed] } ∧
    exec (.sizePrefix .dec 62 3) at63 = .next { State.reset with decResults := [.err .malformed] } := ⟨rfl, rfl⟩

/-- Vectors V16c and V6d: TruncatedInput for a larger length, success for the right one. -/
theorem test_truncated_at_63 :
    exec (.sizePrefix .dec 63 4) at63 = .next { State.reset with decResults := [.err .truncatedInput] } ∧
    exec (.sizePrefix .dec 63 3) at63 =
      .next { State.reset with dec := some { DecVars.start [0xfc, 0x00, 0x03, 0x78, 0x79, 0x7a] with k := 63, due := .payload } } := ⟨rfl, rfl⟩

/-- Vector V16a, whole: one byte too many after 63 entries is Malformed, the only place where it arises. -/
theorem test_decode_V16a :
    decodeBytes (zeros 252 ++ [0xfc, 0x00, 0x03, 0x78, 0x79, 0x7a, 0x71]) = .err .malformed := by decide +kernel

/-- Vector V6d, whole: 63 empty entries and a payload. -/
theorem test_decode_V6d :
    decodeBytes (zeros 252 ++ [0xfc, 0x00, 0x03, 0x78, 0x79, 0x7a]) =
      .ok ⟨List.replicate 63 ⟨[], []⟩, [0x78, 0x79, 0x7a]⟩ := by decide +kernel

/-! ### Witnesses: the hypotheses of each obligation are met, each clause at the edge of its range -/

/-- The longest entry. -/
def maxEntry : Entry := ⟨zeros 65535, zeros 65535⟩

/-- The message with the longest encoding (R72). -/
def maxMsg : Message := ⟨List.replicate 63 maxEntry, zeros 262144⟩

theorem maxMsg_limits : maxMsg.limits := by
  refine ⟨by simp [maxMsg], by simp [maxMsg], ?_⟩
  intro e he
  rw [List.eq_of_mem_replicate he]
  simp [maxEntry, Entry.inLimits]

/-- An ENCODE in progress with 62 entries out: one more is allowed. -/
def enc62 : EncVars := ⟨⟨List.replicate 63 ⟨[], []⟩, []⟩, 62, [], .boundary⟩

/-- A DECODE of V3 in progress, at its first boundary. -/
def decV3 : DecVars := DecVars.start bytesV3

/-- Both units busy. -/
def busy : State := { State.reset with enc := some enc62, dec := some decV3 }

theorem witness_DecodeOfEncodeIsTheInstruction :
    (Instr.headerEntry .dec (zeros 65535) (zeros 65535)).wellFormed = true ∧
    (Instr.payload .dec (zeros 262143)).wellFormed = true ∧ (Instr.message .dec msgV3).wellFormed = true := by
  refine ⟨?_, ?_, by decide⟩ <;> simp [Instr.wellFormed, Agent.payloadMax]

theorem witness_AcceptedFieldBytesAreTheWords :
    Format.message ≠ .status ∧ decode (.field .dec .message) bytesV3 = .instr (.message .dec msgV3) [] ∧
    decode (.field .enc .headerEntry) [0, 0, 0, 0, 7] = .instr (.headerEntry .enc [] []) [7] ∧
    decode (.field .dec .sizePrefix) [0xff, 0xff, 0xff, 7] = .instr (.sizePrefix .dec 63 262143) [7] ∧
    decode (.field .dec .nameLen) [0xff, 0xff, 7] = .instr (.nameLen .dec 65535) [7] ∧
    decode (.field .dec .valueLen) [0, 0] = .instr (.valueLen .dec 0) [] ∧
    decode (.field .dec .name) [] = .instr (.name .dec []) [] ∧
    decode (.field .dec .value) [7] = .instr (.value .dec [7]) [] ∧
    decode (.field .enc .payload) [7] = .instr (.payload .enc [7]) [] := by decide

theorem witness_NameLengthFieldIsBigEndian : (zeros 65535).length = (65535 : BitVec 16).toNat := by simp

theorem witness_FieldsStandInTheEntry : (zeros 65535).length ≤ 65535 ∧ 65534 < (zeros 65535).length ∧
    ([] : Bytes).length ≤ 65535 := by simp

theorem witness_PayloadEndsTheBuffer : 2 < msgV3.payload.length ∧ 262143 < maxMsg.payload.length := by
  simp [msgV3, maxMsg]

/-- A read that ends with the buffer, and one a byte longer. -/
theorem witness_MemReadReadsInsideTheBuffer : 9 + 3 ≤ bytesV3.length ∧ bytesV3.length < 9 + 4 := by decide

theorem witness_PackingLaw :
    (63 ≤ 63 ∧ 262143 ≤ 262144 ∧ ([0xff, 0xff, 0xff] : Bytes) =
      [BitVec.ofNat 8 ((63 <<< 2) ||| (262143 >>> 16)), BitVec.ofNat 8 ((262143 >>> 8) &&& 0xFF), BitVec.ofNat 8 (262143 &&& 0xFF)]) ∧
    (62 ≤ 63 ∧ 262144 ≤ 262144 ∧ ([0xfc, 0x00, 0x00] : Bytes) =
      [BitVec.ofNat 8 ((62 <<< 2) ||| (262144 >>> 16)), BitVec.ofNat 8 ((262144 >>> 8) &&& 0xFF), BitVec.ofNat 8 (262144 &&& 0xFF)]) := by
  decide

theorem witness_StepRunsTheDecodedRequest :
    (withEvents [.request [0x00] ⟨.lit msgV3, .held⟩]).pending = .request [0x00] ⟨.lit msgV3, .held⟩ :: [] ∧
    decode .op [0x00] = .instr .encode [] ∧
    State.presentLine State.reset ⟨.lit msgV3, .held⟩ = some (ports msgV3 []) := by decide

/-- A buffer that ends with an entry of name `a` and empty value; each of the entry's fields ends where a prefix of it does. -/
def entryBuf : Bytes := [0x00, 0x01, 0x61, 0x00, 0x00]

/-- A buffer that ends with a size prefix and one payload byte. -/
def payloadBuf : Bytes := [0x00, 0x00, 0x01, 0x55]

/-- A DECODE of `b` whose next field is `d`, with a name of 1 byte and an empty value where those are read. -/
def fieldDue (b : Bytes) (d : DecDue) : State :=
  { State.reset with dec := some { DecVars.start b with n := 1, due := d }, pending := [.tick .dec .field] }

/-- Each of the six fields: its bytes end with the buffer, and they are an instruction. -/
theorem witness_StepRunsTheFieldAtTheCursor :
    (0 + 3 ≤ (payloadBuf.take 3).length ∧
      decode (.field .dec .sizePrefix) (((payloadBuf.take 3).drop 0).take 3) = .instr (.sizePrefix .dec 0 1) []) ∧
    (0 + 2 ≤ (entryBuf.take 2).length ∧
      decode (.field .dec .nameLen) (((entryBuf.take 2).drop 0).take 2) = .instr (.nameLen .dec 1) []) ∧
    (2 + 1 ≤ (entryBuf.take 3).length ∧
      decode (.field .dec .name) (((entryBuf.take 3).drop 2).take 1) = .instr (.name .dec [0x61]) []) ∧
    (2 + 1 + 2 ≤ entryBuf.length ∧
      decode (.field .dec .valueLen) ((entryBuf.drop 3).take 2) = .instr (.valueLen .dec 0) []) ∧
    (4 + 1 + 0 ≤ entryBuf.length ∧ decode (.field .dec .value) ((entryBuf.drop 5).take 0) = .instr (.value .dec []) []) ∧
    (3 + 1 ≤ payloadBuf.length ∧
      decode (.field .dec .payload) ((payloadBuf.drop 3).take 1) = .instr (.payload .dec [0x55]) []) := by decide

/-- The same six with a buffer one byte too short, in states where the field is due. -/
theorem witness_StepRunsTheFieldAtTheCursor_short :
    (fieldDue entryBuf .valueLen).pending = .tick .dec .field :: [] ∧ (fieldDue entryBuf .valueLen).dec.isSome = true ∧
    (payloadBuf.take 2).length < 0 + 3 ∧ (entryBuf.take 1).length < 0 + 2 ∧ (entryBuf.take 2).length < 2 + 1 ∧
    (entryBuf.take 4).length < 2 + 1 + 2 ∧ (entryBuf.take 4).length < 4 + 1 + 0 ∧ (payloadBuf.take 3).length < 3 + 1 := by
  decide

theorem witness_IdleStepsChangeNothing : State.reset.pending = [] ∧
    (withEvents [.tick .enc .field]).pending = .tick .enc .field :: [] ∧ (withEvents [.tick .enc .field]).enc = none ∧
    (withEvents [.tick .dec .whole]).pending = .tick .dec .whole :: [] ∧ (withEvents [.tick .dec .whole]).dec = none := by decide

theorem witness_ResetAbandonsOperations :
    ({ busy with pending := [.reset] } : State).pending = .reset :: [] ∧ busy.enc.isSome = true ∧ busy.dec.isSome = true := by
  decide

/-- A busy machine with one event. -/
def busyWith (e : HostEvent) : State := { busy with pending := [e] }

theorem witness_OperationBeginsWithStartValues :
    (busyWith (.start .enc ⟨.lit msgV3, .held⟩)).pending = .start .enc ⟨.lit msgV3, .held⟩ :: [] ∧
    State.presentLine busy ⟨.lit msgV3, .held⟩ = some { busy with encPort := msgV3 } ∧
    (busyWith (.start .dec ⟨.held, .term (.lit bytesV3)⟩)).pending = .start .dec ⟨.held, .term (.lit bytesV3)⟩ :: [] ∧
    State.presentLine busy ⟨.held, .term (.lit bytesV3)⟩ = some { busy with decPort := bytesV3 } := ⟨rfl, rfl, rfl, rfl⟩

theorem witness_ABusyUnitGivesItsResultFirst : busy.enc = some enc62 ∧ busy.dec = some decV3 := ⟨rfl, rfl⟩

/-- Results to take operands from: an OK of each unit, and an error of each. -/
def withResults : State :=
  { State.reset with encResults := [.ok bytesV3, .err .limitField], decResults := [.ok msgV3, .err .malformed] }

/-- The same, with one line to run. -/
def withLine (code : Bytes) (ops : Operands) : State := { withResults with pending := [.request code ops] }

/-- Line 0 of each unit's results has a value, line 1 is an error, and there is no line 2. -/
theorem witness_LaterLineUsesAnEarlierValue (code : Bytes) (ops : Operands) :
    (withLine code ops).pending = .request code ops :: [] ∧ (withLine code ops).enc = none ∧ (withLine code ops).dec = none ∧
    (withLine code ops).encResults = [.ok bytesV3, .err .limitField] ∧
    (withLine code ops).decResults = [.ok msgV3, .err .malformed] :=
  ⟨rfl, rfl, rfl, rfl, rfl⟩

/-- The terms of the clauses: an entry of the result, a concatenation, a slice that ends with the string and one that does not fit. -/
theorem witness_LaterLineUsesAnEarlierValue_terms :
    msgV3.headers = [⟨[0x61], [0x62]⟩] ∧ withResults.bytesOf (.encoded 0) = some bytesV3 ∧
    withResults.bytesOf (.slice (.encoded 0) 9 12) = some [0x78, 0x79, 0x7a] ∧
    withResults.bytesOf (.slice (.encoded 0) 9 13) = none ∧
    withResults.bytesOf (.append (.payloadOf 0) (.nameOf 0 0)) = some [0x78, 0x79, 0x7a, 0x61] := by decide

/-- A line that names the result of the ENCODE in progress. -/
theorem witness_LaterLineUsesAnEarlierValue_inProgress :
    ({ encoding msgV3 0 [] .boundary with pending := [.request [1] ⟨.held, .term (.encoded 0)⟩] } : State).pending =
      .request [1] ⟨.held, .term (.encoded 0)⟩ :: [] ∧
    (encoding msgV3 0 [] .boundary).enc = some ⟨msgV3, 0, [], .boundary⟩ ∧
    (encoding msgV3 0 [] .boundary).encResults.length = 0 ∧ encodeMessage msgV3 = .ok bytesV3 := ⟨rfl, rfl, rfl, rfl⟩

theorem witness_EncodeEmitsEntriesPrefixAndPayload : (ports maxMsg []).enc = none ∧ (ports maxMsg []).encPort.limits :=
  ⟨rfl, maxMsg_limits⟩

/-- 64 headers; 63 headers with 262145 payload bytes; the two errors as results. -/
theorem witness_HeaderAndPayloadLimits :
    (∀ m, (ports m []).enc = none) ∧ (List.replicate 64 (⟨[], []⟩ : Entry)).length > 63 ∧ (List.replicate 63 (⟨[], []⟩ : Entry)).length ≤ 63 ∧
    (zeros 262145).length > 262144 ∧ encodeMessage ⟨List.replicate 64 ⟨[], []⟩, []⟩ = .err .limitHeaders ∧
    encodeMessage ⟨[], zeros 262145⟩ = .err .limitPayload := by
  refine ⟨fun _ => rfl, by simp, by simp, by simp, by decide, encodeMessage_of_limitError ?_⟩
  have h : (zeros 262145).length > Config.payloadMax := by rw [zeros_length]; decide
  unfold limitError
  rw [if_neg (by simp), if_pos h]

/-- The shortest and the longest encoding. -/
theorem witness_EncodedLength : encodeMessage ⟨[], []⟩ = .ok [0, 0, 0] ∧ encodeMessage maxMsg = .ok (messageBytes maxMsg) :=
  ⟨rfl, encodeMessage_of_limits maxMsg_limits⟩

theorem witness_EmptyMessageEncodesToThreeZeros : State.reset.enc = none ∧ State.reset.encPort = ⟨[], []⟩ := ⟨rfl, rfl⟩

theorem witness_PayloadOf262144IsEncodedButNotRecovered : maxMsg.limits ∧ maxMsg.payload.length = 262144 :=
  ⟨maxMsg_limits, by simp [maxMsg]⟩

theorem witness_ReEncodingLaw : decodeBytes bytesV3 = .ok msgV3 := by decide

theorem witness_DecodeResultWithinLimits : decodeBytes [0, 0, 0] = .ok ⟨[], []⟩ ∧ decodeBytes bytesV3 = .ok msgV3 := by decide

/-- The largest payload the law covers, after the largest entries. -/
theorem witness_WhichMessageComesBack :
    (⟨List.replicate 63 maxEntry, zeros 262143⟩ : Message).payload.length ≤ 262143 ∧
    encodeMessage ⟨List.replicate 63 maxEntry, zeros 262143⟩ = .ok (messageBytes ⟨List.replicate 63 maxEntry, zeros 262143⟩) := by
  refine ⟨by simp, encodeMessage_of_limits ⟨by simp, by simp [Config.payloadMax], ?_⟩⟩
  intro e he
  rw [List.eq_of_mem_replicate he]
  simp [maxEntry, Entry.inLimits]

/-- On both sides of the domain: V3 comes back; `mB` of V9 has a false stop at its first boundary. -/
theorem witness_RoundTripExactlyOnItsDomain :
    encodeMessage msgV3 = .ok bytesV3 ∧
    encodeMessage ⟨[⟨[0x00], zeros 251⟩], []⟩ = .ok (messageBytes ⟨[⟨[0x00], zeros 251⟩], []⟩) ∧
    Message.falseStopAt ⟨[⟨[0x00], zeros 251⟩], []⟩ 0 := by
  refine ⟨by decide, encodeMessage_of_limits ?_, ⟨[0x00], zeros 251⟩, rfl, ?_⟩
  · simp [Message.limits, Entry.inLimits, Config.fieldMax]
  · simp [Entry.falseStop, Entry.thirdByte, entriesSize, Entry.size]

/-- No headers; a name of 1024 at boundary 0; a product one above and a sum one below what is unread less three. -/
theorem witness_ConditionsAgainstFalseStops :
    (⟨[], []⟩ : Message).headers = [] ∧
    ((⟨[⟨zeros 1024, []⟩], []⟩ : Message).headers[0]? = some ⟨zeros 1024, []⟩ ∧ (zeros 1024).length >>> 10 ≠ 0) ∧
    (⟨[⟨zeros 1, zeros 250⟩], []⟩ : Message).headers[0]? = some ⟨zeros 1, zeros 250⟩ ∧
    (zeros 1).length % 1024 * 256 > entriesSize [⟨zeros 1, zeros 250⟩] + 3 + 0 - 3 ∧
    (zeros 1).length % 1024 * 256 + 255 < entriesSize [⟨zeros 1, zeros 507⟩] + 3 + 0 - 3 ∧ (zeros 507).length ≤ 65535 ∧
    (∀ e ∈ [(⟨zeros 1023, []⟩ : Entry)], e.name.length < 1024) ∧
    zeros 1 ≠ [] ∧ (zeros 1).length < 1024 ∧ entriesSize [⟨zeros 1, zeros 250⟩] + 3 + 0 ≤ 258 := by
  refine ⟨rfl, ⟨rfl, by simp⟩, rfl, ?_, ?_, ?_, ?_, by decide, ?_, ?_⟩ <;> simp [entriesSize, Entry.size]

/-- V12: a prefix of V3, and one shorter than 3 bytes. -/
theorem witness_TruncationLaw : encodeMessage msgV3 = .ok bytesV3 ∧ bytesV3.take 11 <+: bytesV3 ∧ bytesV3.take 11 ≠ bytesV3 ∧
    bytesV3.take 2 <+: bytesV3 ∧ (bytesV3.take 2).length < 3 :=
  ⟨by decide, List.take_prefix .., by decide, List.take_prefix .., by decide⟩

/-- V12x. -/
theorem witness_ExtensionLaw : encodeMessage msgV3 = .ok bytesV3 ∧ ([0] : Bytes) ≠ [] := by decide

theorem witness_ShortBuffers : ([0, 0] : Bytes).length < 3 ∧ ([0, 0, 1] : Bytes).length = 3 := by decide

theorem witness_ResultsDependOnTheOperandAlone :
    State.reset.enc = none ∧ withResults.enc = none ∧ State.reset.encPort = withResults.encPort ∧
    State.reset.dec = none ∧ withResults.dec = none ∧ State.reset.decPort = withResults.decPort ∧
    State.reset ≠ withResults := by decide

theorem witness_EveryWellFormedInstructionCompletes :
    (Instr.status .dec (.error .malformed)).wellFormed = true ∧ (Instr.name .enc (zeros 65535)).wellFormed = true :=
  ⟨rfl, by simp [Instr.wellFormed]⟩

theorem witness_StatusOfTheOtherUnitIsRefused : (Status.error .truncatedInput).belongsTo .enc = false := rfl

theorem witness_EncWritesEntryFields : busy.enc = some enc62 ∧ enc62.i < 63 ∧ (zeros 65535).length ≤ 65535 :=
  ⟨rfl, by decide, by simp⟩

theorem witness_EncWritesMessageFields : busy.enc = some enc62 ∧ (zeros 262144).length ≤ 262144 ∧
    encodeMessage msgV3 = .ok bytesV3 := ⟨rfl, by simp, by decide⟩

theorem witness_EncWriteBeyondALimitRaises :
    ({ busy with enc := some { enc62 with i := 63 } } : State).enc = some { enc62 with i := 63 } ∧
    ({ enc62 with i := 63 } : EncVars).i ≥ 63 ∧ enc62.i < 63 ∧ (zeros 65536).length > 65535 ∧ (zeros 262145).length > 262144 ∧
    encodeMessage ⟨List.replicate 64 ⟨[], []⟩, []⟩ = .err .limitHeaders :=
  ⟨rfl, by decide, by decide, by simp, by simp, by decide⟩

/-- For DecReadsEntryFields, DecReadsTheSizePrefix and DecReadsPayloadAndMessage: a DECODE in progress. -/
theorem witness_DecReads : busy.dec = some decV3 := rfl

/-- A DECODE at an entry with one transfer of an entry pending. -/
def entryDue (b : Bytes) : State :=
  { State.reset with dec := some { DecVars.start b with due := .nameLen }, pending := [.tick .dec .entry] }

/-- For the entry rules: a name of 9 that does not fit in 12 bytes; a value of 8 after a name of 1 that does not; one of 7
that just does. -/
theorem witness_AnEntryIsReadByItsRules :
    (entryDue bytesV3).pending = .tick .dec .entry :: [] ∧ (entryDue bytesV3).dec = some { decV3 with due := .nameLen } ∧
    0 + 3 ≤ bytesV3.length ∧ bytesV3[0]? = some 0x00 ∧ bytesV3[1]? = some 0x01 ∧ 1 = (0x00 <<< 8 ||| 0x01) ∧
    2 + 1 + 2 ≤ bytesV3.length - 0 ∧ bytesV3[3]? = some 0x00 ∧ bytesV3[4]? = some 0x01 ∧
    4 + 1 + 1 ≤ bytesV3.length - 0 ∧ 4 + 1 + 7 ≤ bytesV3.length - 0 ∧ 4 + 1 + 8 > bytesV3.length - 0 ∧
    2 + 9 + 2 > bytesV3.length - 0 := by decide

theorem witness_StatusEndsTheOperation : busy.enc = some enc62 ∧ busy.dec = some decV3 := ⟨rfl, rfl⟩

theorem witness_FieldOnAnIdleUnitChangesNothing :
    (Instr.nameLen .enc 0).wellFormed = true ∧ (Instr.nameLen .enc 0).position = .field .enc .nameLen ∧ State.reset.enc = none ∧
    (Instr.status .dec .ok).wellFormed = true ∧ (Instr.status .dec .ok).position = .field .dec .status ∧ State.reset.dec = none := by
  decide

/-- For each unit: the last entry allowed, and an entry that just fits in the 12 bytes of V3. -/
theorem witness_HeaderEntryIsItsFourFields :
    (∀ v, busy.enc = some v → v.i < 63) ∧
    (∀ v, busy.dec = some v → 4 + ([0x61] : Bytes).length + (zeros 7).length ≤ v.buffer.length - v.pos) := by
  constructor
  · intro v h; cases h; decide
  · intro v h; cases h; decide

theorem witness_AnInstructionTouchesOnlyItsUnit :
    (∃ t, exec .encode busy = .next t) ∧ (Instr.nameLen .dec 9).position = .field .dec .nameLen ∧
    exec (.nameLen .dec 9) busy = .next { busy with dec := none, decResults := [.err .truncatedInput] } := ⟨⟨_, rfl⟩, rfl, rfl⟩

/-- An ENCODE of V3 about to end, and a DECODE of V3 with its first name length read, are sound. -/
theorem encodingV3_sound : (encoding msgV3 1 bytesV3 .status).Sound :=
  ⟨fun v h => by cases h; exact ⟨rfl, by decide⟩, fun v h => by cases h⟩

theorem decodingV3_sound : decodingV3.Sound := by
  refine ⟨fun v h => (by cases h), fun v h => ?_⟩
  cases h
  exact ⟨.start, rfl, ⟨by decide, 0x00, 0x01, 0x61, by decide, by decide⟩, by decide, by decide⟩

theorem witness_StepKeepsTheWorkingVariablesSound :
    ({ decodingV3 with pending := [.tick .dec .field] } : State).Sound ∧
    step { decodingV3 with pending := [.tick .dec .field] } =
      .next { State.reset with dec := some { DecVars.start bytesV3 with n := 1, name := [0x61], due := .valueLen } } :=
  ⟨decodingV3_sound, rfl⟩

/-- A DECODE of 3 bytes that are no message, about to fail at its name length (vector V15e). -/
theorem decodingV15e_sound : (decoding [0, 0, 1] .nameLen).Sound := by
  refine ⟨fun v h => (by cases h), fun v h => ?_⟩
  cases h
  exact ⟨.start, rfl, by decide, 0x00, 0x00, 0x01, by decide, by decide⟩

theorem witness_ATransferDeliversTheWholeResult :
    (({ encoding msgV3 1 bytesV3 .status with pending := [.tick .enc .field] } : State).Sound ∧
      step { encoding msgV3 1 bytesV3 .status with pending := [.tick .enc .field] } =
        .next { State.reset with encResults := [.ok bytesV3] }) ∧
    (({ decoding [0, 0, 1] .nameLen with pending := [.tick .dec .field] } : State).Sound ∧
      step { decoding [0, 0, 1] .nameLen with pending := [.tick .dec .field] } =
        .next { State.reset with decResults := [.err .truncatedInput] }) :=
  ⟨⟨encodingV3_sound, rfl⟩, ⟨decodingV15e_sound, rfl⟩⟩

theorem witness_EndingAtOnceIsTheRemainingTransfers : decodingV3.Sound ∧ (encoding msgV3 1 bytesV3 .status).Sound :=
  ⟨decodingV3_sound, encodingV3_sound⟩

theorem witness_AnyInterleavingDeliversBothResults :
    255 ≤ (List.replicate 318 (Agent.dec, Grain.field) ++ List.replicate 255 (Agent.enc, Grain.entry)).countP (fun x => x.1 == .enc) ∧
    318 ≤ (List.replicate 318 (Agent.dec, Grain.field) ++ List.replicate 255 (Agent.enc, Grain.entry)).countP (fun x => x.1 == .dec) := by
  simp only [List.countP_append, List.countP_replicate]; decide

end Sys2Proof.Tests
end

section
/-! What ENCODE and DECODE do to an idle unit: one result, a function of the operand at the port, is appended to the
unit's results and the rest of the state stays (`10_state.md` R10, `40_encoder.md` R71). -/

namespace Sys2Proof.Machine

/-! ### Ending an operation of a unit that has none in progress -/

theorem State.deliverEnc_of_idle {s : State} (h : s.enc = none) (r : Result Bytes) :
    s.deliverEnc r = { s with encResults := s.encResults ++ [r] } := by
  rw [State.deliverEnc, ← h]

theorem State.deliverDec_of_idle {s : State} (h : s.dec = none) (r : Result Message) :
    s.deliverDec r = { s with decResults := s.decResults ++ [r] } := by
  rw [State.deliverDec, ← h]

/-! ### The two operations -/

theorem exec_encode (s : State) :
    exec .encode s = .next ((s.finish .enc).deliverEnc (encodeMessage s.encPort)) := rfl

theorem exec_decode (s : State) :
    exec .decode s = .next ((s.finish .dec).deliverDec (decodeBytes s.decPort)) := rfl

theorem exec_encode_of_idle {s : State} (h : s.enc = none) :
    exec .encode s = .next { s with encResults := s.encResults ++ [encodeMessage s.encPort] } := by
  rw [exec_encode, State.finish_enc_idle h, State.deliverEnc_of_idle h]

theorem exec_decode_of_idle {s : State} (h : s.dec = none) :
    exec .decode s = .next { s with decResults := s.decResults ++ [decodeBytes s.decPort] } := by
  rw [exec_decode, State.finish_dec_idle h, State.deliverDec_of_idle h]

/-- Settles O41: the common result is `encodeMessage`, respectively `decodeBytes`, of the operand the two ports share. -/
theorem resultsDependOnTheOperandAlone : Obligations.ResultsDependOnTheOperandAlone := by
  constructor
  · intro s s' hs hs' hport
    refine ⟨encodeMessage s.encPort, exec_encode_of_idle hs, ?_⟩
    rw [exec_encode_of_idle hs', hport]
  · intro s s' hs hs' hport
    refine ⟨decodeBytes s.decPort, exec_decode_of_idle hs, ?_⟩
    rw [exec_decode_of_idle hs', hport]

end Sys2Proof.Machine
end

section
/-! Which bytes the words of a wire field are (`30_encoding.md` R41 to R45, R50): the two numbers as slices of their
bit vectors, and the bytes of an entry and of a message by index. -/

namespace Sys2Proof

/-! ### The two-byte length -/

/-- A length field is the high byte of its number and then the low byte (R42, R44). -/
theorem be16_toNat (n : BitVec 16) : be16 n.toNat = [n.extractLsb' 8 8, n.extractLsb' 0 8] := by
  have hlow : BitVec.ofNat 8 (n.toNat &&& 0xFF) = n.extractLsb' 0 8 := by
    apply BitVec.eq_of_toNat_eq
    simp [and255]
  rw [be16, hlow]
  rfl

theorem rd16_cons_cons (x y : Byte) (rest : Bytes) : rd16 (x :: y :: rest) 0 = some (x ++ y).toNat := by
  rw [BitVec.toNat_append]
  exact rd16_of_bytes rfl rfl

theorem decode_nameLen_of_rd16 (u : Agent) {bs : Bytes} {n : Nat} (h : rd16 bs 0 = some n) :
    decode (.field u .nameLen) bs = .instr (.nameLen u (BitVec.ofNat 16 n)) (bs.drop 2) := by
  simp [decode, decodeField, h]

/-- Settles O4: the two bytes are the slices of `N`, and `rd16` of any two bytes is their concatenation as a number. -/
theorem nameLengthFieldIsBigEndian : Obligations.NameLengthFieldIsBigEndian := by
  refine ⟨fun u n => be16_toNat n, fun u x y rest => ?_, fun u m val hval => ?_⟩
  · rw [decode_nameLen_of_rd16 u (rd16_cons_cons x y rest), BitVec.ofNat_toNat, BitVec.setWidth_eq]
    rfl
  · simp only [encode, entryBytes, hval]
    rfl

/-! ### Bytes by index -/

/-- The bytes of a part of a buffer stand at the part's own offset. -/
theorem getElem?_append_part {pre part post : Bytes} {a i : Nat} (ha : pre.length = a) (hi : i < part.length) :
    (pre ++ part ++ post)[a + i]? = part[i]? := by
  subst ha
  rw [List.getElem?_append_left (by simpa using hi), List.getElem?_append_right (by omega), Nat.add_sub_cancel_left]

theorem entryBytes_getElem?_nameLen (e : Entry) {i : Nat} (hi : i < 2) :
    (entryBytes e)[i]? = (be16 e.name.length)[i]? := by
  simp only [entryBytes, List.append_assoc]
  exact List.getElem?_append_left hi

theorem entryBytes_getElem?_name (e : Entry) {i : Nat} (hi : i < e.name.length) :
    (entryBytes e)[2 + i]? = e.name[i]? := by
  simp only [entryBytes, List.append_assoc _ (be16 _)]
  exact getElem?_append_part rfl hi

theorem entryBytes_getElem?_valueLen (e : Entry) {i : Nat} (hi : i < 2) :
    (entryBytes e)[2 + e.name.length + i]? = (be16 e.value.length)[i]? :=
  getElem?_append_part (by simp) hi

theorem entryBytes_getElem?_value (e : Entry) {i : Nat} (hi : i < e.value.length) :
    (entryBytes e)[4 + e.name.length + i]? = e.value[i]? := by
  rw [← List.append_nil (entryBytes e)]
  exact getElem?_append_part (by simp; omega) hi

/-- Settles O5: each clause is where one of the four fields stands in `entryBytes`. -/
theorem fieldsStandInTheEntry : Obligations.FieldsStandInTheEntry := by
  intro u nm val _ _
  have hlen : (entryBytes ⟨nm, val⟩).length = 4 + nm.length + val.length := entryBytes_length ⟨nm, val⟩
  refine ⟨hlen, (Entry.four_le_size ⟨nm, val⟩).trans_eq hlen.symm,
    entryBytes_getElem?_nameLen ⟨nm, val⟩ (i := 0) (by decide),
    entryBytes_getElem?_nameLen ⟨nm, val⟩ (i := 1) (by decide),
    fun i hi => entryBytes_getElem?_name ⟨nm, val⟩ hi,
    entryBytes_getElem?_valueLen ⟨nm, val⟩ (i := 0) (by decide), ?_,
    fun i hi => entryBytes_getElem?_value ⟨nm, val⟩ hi⟩
  rw [show 3 + nm.length = 2 + nm.length + 1 by omega]
  exact entryBytes_getElem?_valueLen ⟨nm, val⟩ (i := 1) (by decide)

theorem messageBytes_getElem?_payload (m : Message) {i : Nat} (hi : i < m.payload.length) :
    (messageBytes m)[entriesSize m.headers + 3 + i]? = m.payload[i]? := by
  rw [← List.append_nil (messageBytes m)]
  exact getElem?_append_part (by simp) hi

/-- Settles O6: the payload is the last part of `messageBytes`, after `H` bytes of entries and 3 of size prefix. -/
theorem payloadEndsTheBuffer : Obligations.PayloadEndsTheBuffer :=
  fun _ m => ⟨fun _ hi => messageBytes_getElem?_payload m hi, messageBytes_length m⟩

/-! ### The size prefix as one number -/

/-- `CNT` of the three bytes of `W` is `W[23:18]` (R45). -/
theorem prefixCnt_extract (w : BitVec 24) : prefixCnt (w.extractLsb' 16 8) = (w.extractLsb' 18 6).toNat := by
  simp only [prefixCnt_eq, BitVec.extractLsb'_toNat, Nat.shiftRight_eq_div_pow]
  omega

/-- `PLEN` of the three bytes of `W` is `W[17:0]` (R45). -/
theorem prefixPlen_extract (w : BitVec 24) :
    prefixPlen (w.extractLsb' 16 8) (w.extractLsb' 8 8) (w.extractLsb' 0 8) = (w.extractLsb' 0 18).toNat := by
  simp only [prefixPlen_eq, BitVec.extractLsb'_toNat, Nat.shiftRight_eq_div_pow]
  omega

theorem decode_sizePrefix (u : Agent) (y0 y1 y2 : Byte) (rest : Bytes) :
    decode (.field u .sizePrefix) (y0 :: y1 :: y2 :: rest) =
      .instr (.sizePrefix u (BitVec.ofNat 6 (prefixCnt y0)) (BitVec.ofNat 18 (prefixPlen y0 y1 y2))) rest := rfl

/-- Settles O8: count and length of the three bytes are the two slices of `W`, so composing and extracting are the two
directions. -/
theorem sizePrefixIsOneNumber : Obligations.SizePrefixIsOneNumber := by
  intro u w
  constructor
  · rw [encode, ← prefixCnt_extract, ← prefixPlen_extract, composePrefix_of_bytes]
  · rw [decode_sizePrefix, prefixCnt_extract, prefixPlen_extract]
    simp only [BitVec.ofNat_toNat, BitVec.setWidth_eq]

end Sys2Proof
end

section
/-! What ENCODE delivers within the limits, and when the two counting errors arise (`40_encoder.md` R61 to R68, R73,
`60_exceptions.md` R126, R127): a limit error is the first check that fails, and no scan ends in one. -/

namespace Sys2Proof

/-! ### The bytes of the entries, field by field -/

theorem entriesBytes_eq_flatMap (es : List Entry) : entriesBytes es = es.flatMap entryBytes := by
  induction es with
  | nil => rfl
  | cons e es ih => rw [entriesBytes, ih, List.flatMap_cons]

/-- A length within `FIELD_MAX` keeps its value in the 16 bits of the field (R42, R64). -/
theorem be16_ofNat_toNat {n : Nat} (h : n ≤ Config.fieldMax) : be16 (BitVec.ofNat 16 n).toNat = be16 n := by
  rw [BitVec.toNat_ofNat, Nat.mod_eq_of_lt (Nat.lt_succ_of_le h)]

/-- The words of the two length fields stand in the bytes of an entry within the limits (R66). -/
theorem entryBytes_eq_words (u : Agent) {e : Entry} (he : e.inLimits) :
    entryBytes e = encode (.nameLen u (BitVec.ofNat 16 e.name.length)) ++ e.name ++
      encode (.valueLen u (BitVec.ofNat 16 e.value.length)) ++ e.value := by
  obtain ⟨hname, hvalue⟩ := he
  simp only [encode, be16_ofNat_toNat hname, be16_ofNat_toNat hvalue]
  rfl

/-! ### The errors of DECODE -/

theorem cutOffError_belongsTo_dec (cnt plen R : Nat) : (Status.error (cutOffError cnt plen R)).belongsTo .dec = true := by
  unfold cutOffError
  split <;> rfl

/-- A visit fails only with an error of the DEC unit (R84, R87, R89, R91). -/
theorem belongsTo_dec_of_visit_fail {b : Bytes} {pos k : Nat} {e : CodecError} (h : visit b pos k = .fail e) :
    (Status.error e).belongsTo .dec = true := by
  cases hr : memRead b pos 3 with
  | none =>
    rw [visit_few (by have := memRead_eq_none.1 hr; omega)] at h
    cases h
    rfl
  | some x =>
    obtain ⟨y0, y1, y2, rfl⟩ := three_bytes (memRead_length hr)
    rw [visit_of_bytes hr] at h
    split at h
    · cases h
    · split at h
      · cases h
        exact cutOffError_belongsTo_dec ..
      · split at h
        · cases h
        · cases h
          rfl

theorem belongsTo_dec_of_decodeFrom_err {b : Bytes} {passes pos : Nat} {hdrs : List Entry} {e : CodecError}
    (h : decodeFrom b passes pos hdrs = .err e) : (Status.error e).belongsTo .dec = true := by
  induction passes generalizing pos hdrs with
  | zero =>
    cases h
    rfl
  | succ passes ih =>
    cases hv : visit b pos hdrs.length with
    | accept p =>
      rw [decodeFrom_accept hv] at h
      cases h
    | fail e' =>
      rw [decodeFrom_fail hv] at h
      cases h
      exact belongsTo_dec_of_visit_fail hv
    | entry e' =>
      rw [decodeFrom_entry hv] at h
      exact ih h

/-- DECODE ends only with an error of the DEC unit (R128). -/
theorem decodeBytes_ne_err {e : CodecError} (he : (Status.error e).belongsTo .dec = false) (b : Bytes) :
    decodeBytes b ≠ .err e := by
  intro h
  rw [belongsTo_dec_of_decodeFrom_err h] at he
  cases he

end Sys2Proof

namespace Sys2Proof.Machine

/-! ### The checks of ENCODE, one by one -/

theorem limitError_eq_limitHeaders {m : Message} :
    limitError m = some .limitHeaders ↔ m.headers.length > Config.hdrMax := by
  unfold limitError
  split_ifs with hh <;> simp [hh]

theorem limitError_eq_limitPayload {m : Message} :
    limitError m = some .limitPayload ↔
      m.headers.length ≤ Config.hdrMax ∧ m.payload.length > Config.payloadMax := by
  unfold limitError
  split_ifs with hh hp <;> simp <;> omega

theorem encodeMessage_eq_err {m : Message} {e : CodecError} : encodeMessage m = .err e ↔ limitError m = some e := by
  cases h : limitError m with
  | none => simp [encodeMessage_of_limits (limitError_eq_none.1 h)]
  | some e' => simp [encodeMessage_of_limitError h]

/-! ### ENCODE of an idle unit -/

/-- An idle ENC unit delivers the encoding of the operand at its port, and is idle again. -/
theorem exec_encode_delivers {s : State} {r : Result Bytes} (hs : s.enc = none) (hr : encodeMessage s.encPort = r) :
    exec .encode s = .next { s with enc := none, encResults := s.encResults ++ [r] } := by
  rw [exec_encode_of_idle hs, hr, ← hs]

/-- Settles O24: both parts of the message are empty, so its bytes are the size prefix of two zeros. -/
theorem emptyMessageEncodesToThreeZeros : Obligations.EmptyMessageEncodesToThreeZeros := by
  intro s hs hport
  apply exec_encode_delivers hs
  rw [hport]
  rfl

/-- Settles O20: within the limits the result is `messageBytes`, each entry of which is its four fields. -/
theorem encodeEmitsEntriesPrefixAndPayload : Obligations.EncodeEmitsEntriesPrefixAndPayload := by
  intro s hs hlim
  apply exec_encode_delivers hs
  rw [encodeMessage_of_limits hlim, messageBytes, entriesBytes_eq_flatMap]
  obtain ⟨-, -, hentries⟩ := hlim
  rw [List.flatMap_congr fun e he => entryBytes_eq_words .enc (hentries e he)]
  rfl

/-- Settles O21: each of the two errors is the first check that fails, and neither is one of the DEC unit's. -/
theorem headerAndPayloadLimits : Obligations.HeaderAndPayloadLimits := by
  refine ⟨fun s hs hc => ?_, fun s hs hc hp => ?_, fun m h => ?_, fun m h => ?_, fun b => ?_⟩
  · exact exec_encode_delivers hs (encodeMessage_eq_err.2 (limitError_eq_limitHeaders.2 hc))
  · exact exec_encode_delivers hs (encodeMessage_eq_err.2 (limitError_eq_limitPayload.2 ⟨hc, hp⟩))
  · exact limitError_eq_limitHeaders.1 (encodeMessage_eq_err.1 h)
  · exact limitError_eq_limitPayload.1 (encodeMessage_eq_err.1 h)
  · exact ⟨decodeBytes_ne_err rfl b, decodeBytes_ne_err rfl b⟩

end Sys2Proof.Machine
end

section
/-! The boundaries a scan reaches, and DECODE as where the scan ends (`41_decoder.md` R82, R83, R93, R101): a boundary
stands after entries within the limits whose bytes begin the buffer, and the result is what the visit of the last
boundary says. -/

namespace Sys2Proof.Machine

/-! ### What a boundary that is reached says -/

/-- At most 63 entries are parsed, since none is after the 63rd (R87). -/
theorem Reached.length_le {b : Bytes} {pos : Nat} {hdrs : List Entry} (h : Reached b pos hdrs) :
    hdrs.length ≤ Config.hdrMax := by
  induction h with
  | start => exact Nat.zero_le _
  | next _ hv ih =>
    have := (visit_eq_entry.1 hv).1
    simp only [List.length_append, List.length_singleton]
    omega

theorem Reached.inLimits {b : Bytes} {pos : Nat} {hdrs : List Entry} (h : Reached b pos hdrs) :
    ∀ e ∈ hdrs, e.inLimits := by
  induction h with
  | start => simp
  | next _ hv ih =>
    have hnew := (parseEntry_eq_some.1 (visit_eq_entry.1 hv).2.1).1
    intro e he
    rcases List.mem_append.1 he with he | he
    · exact ih e he
    · rw [List.mem_singleton.1 he]
      exact hnew

/-- The bytes before a boundary are those of the entries parsed (R106). -/
theorem Reached.bytes_eq {b : Bytes} {pos : Nat} {hdrs : List Entry} (h : Reached b pos hdrs) :
    b = entriesBytes hdrs ++ b.drop pos := by
  induction h with
  | start => rfl
  | next _ hv ih =>
    obtain ⟨-, -, hd⟩ := parseEntry_eq_some.1 (visit_eq_entry.1 hv).2.1
    rw [hd] at ih
    simpa [entriesBytes_append, entriesBytes] using ih

/-! ### The scan as a walk over boundaries -/

/-- The scan goes on from a boundary it reaches with the passes that are left. -/
theorem Reached.decodeBytes_eq {b : Bytes} {pos : Nat} {hdrs : List Entry} (h : Reached b pos hdrs) :
    decodeBytes b = decodeFrom b (Config.hdrMax - hdrs.length + 1) pos hdrs := by
  induction h with
  | start => rfl
  | @next pos hdrs e h hv ih =>
    have hk := (visit_eq_entry.1 hv).1
    have hle := h.length_le
    have hpasses : Config.hdrMax - hdrs.length = Config.hdrMax - (hdrs ++ [e]).length + 1 := by
      simp only [List.length_append, List.length_singleton]
      omega
    rw [ih, decodeFrom_entry hv, hpasses]

theorem Reached.decodeBytes_of_accept {b p : Bytes} {pos : Nat} {hdrs : List Entry} (h : Reached b pos hdrs)
    (hv : visit b pos hdrs.length = .accept p) : decodeBytes b = .ok ⟨hdrs, p⟩ := by
  rw [h.decodeBytes_eq, decodeFrom_accept hv]

theorem Reached.decodeBytes_of_fail {b : Bytes} {pos : Nat} {hdrs : List Entry} {e : CodecError}
    (h : Reached b pos hdrs) (hv : visit b pos hdrs.length = .fail e) : decodeBytes b = .err e := by
  rw [h.decodeBytes_eq, decodeFrom_fail hv]

/-- The scan reaches a boundary at which no entry is parsed (R101). -/
theorem exists_last_boundary (b : Bytes) :
    ∃ pos hdrs, Reached b pos hdrs ∧ ∀ e, visit b pos hdrs.length ≠ .entry e := by
  by_contra hnone
  have hmore : ∀ n, ∃ pos hdrs, Reached b pos hdrs ∧ hdrs.length = n := by
    intro n
    induction n with
    | zero => exact ⟨0, [], .start, rfl⟩
    | succ n ih =>
      obtain ⟨pos, hdrs, h, hlen⟩ := ih
      obtain ⟨e, hv⟩ : ∃ e, visit b pos hdrs.length = .entry e := by
        by_contra hlast
        exact hnone ⟨pos, hdrs, h, fun e he => hlast ⟨e, he⟩⟩
      exact ⟨_, _, h.next hv, by simp [hlen]⟩
  obtain ⟨pos, hdrs, h, hlen⟩ := hmore 64
  exact absurd (hlen ▸ h.length_le) (by decide)

/-- DECODE gives a message exactly where a visit of a boundary accepts (R86). -/
theorem decodeBytes_eq_ok {b : Bytes} {m : Message} :
    decodeBytes b = .ok m ↔ ∃ pos, Reached b pos m.headers ∧ visit b pos m.headers.length = .accept m.payload := by
  constructor
  · intro hdec
    obtain ⟨pos, hdrs, h, hlast⟩ := exists_last_boundary b
    cases hv : visit b pos hdrs.length with
    | accept p =>
      rw [h.decodeBytes_of_accept hv] at hdec
      cases hdec
      exact ⟨pos, h, hv⟩
    | fail e =>
      rw [h.decodeBytes_of_fail hv] at hdec
      cases hdec
    | entry e => exact absurd hv (hlast e)
  · rintro ⟨pos, h, hv⟩
    exact h.decodeBytes_of_accept hv

/-- DECODE gives an error exactly where a visit of a boundary fails with it (R84, R87, R89, R91). -/
theorem decodeBytes_eq_err {b : Bytes} {e : CodecError} :
    decodeBytes b = .err e ↔ ∃ pos hdrs, Reached b pos hdrs ∧ visit b pos hdrs.length = .fail e := by
  constructor
  · intro hdec
    obtain ⟨pos, hdrs, h, hlast⟩ := exists_last_boundary b
    cases hv : visit b pos hdrs.length with
    | accept p =>
      rw [h.decodeBytes_of_accept hv] at hdec
      cases hdec
    | fail e' =>
      rw [h.decodeBytes_of_fail hv] at hdec
      cases hdec
      exact ⟨pos, hdrs, h, hv⟩
    | entry e' => exact absurd hv (hlast e')
  · rintro ⟨pos, hdrs, h, hv⟩
    exact h.decodeBytes_of_fail hv

end Sys2Proof.Machine
end

section
/-! The laws of the codec (`45_codec_laws.md`): what DECODE accepts is an encoding, which message comes back from an
encoding, and the set of buffers that are accepted. -/

namespace Sys2Proof.Machine

/-! ### Whatever is accepted is an encoding -/

/-- What DECODE returns is within the limits, its payload fits the 18 bits, and its bytes are the buffer (R106, R107). -/
theorem eq_messageBytes_of_decodeBytes {b : Bytes} {m : Message} (h : decodeBytes b = .ok m) :
    m.limits ∧ m.payload.length ≤ Config.plenFieldMax ∧ b = messageBytes m := by
  obtain ⟨pos, hreach, hv⟩ := decodeBytes_eq_ok.1 h
  obtain ⟨-, hp, hd⟩ := visit_eq_accept.1 hv
  refine ⟨⟨hreach.length_le, hp.trans (by decide), hreach.inLimits⟩, hp, ?_⟩
  have hb := hreach.bytes_eq
  rw [hd, ← List.append_assoc] at hb
  exact hb

/-- Settles O28: the entries before the accepted boundary and what is read there are all the bytes there are. -/
theorem reEncodingLaw : Obligations.ReEncodingLaw := by
  intro b m h
  obtain ⟨hlim, -, rfl⟩ := eq_messageBytes_of_decodeBytes h
  exact encodeMessage_of_limits hlim

/-- ENCODE succeeds exactly within the limits, with the bytes of the message (R69, R118). -/
theorem encodeMessage_eq_ok {m : Message} {out : Bytes} :
    encodeMessage m = .ok out ↔ m.limits ∧ out = messageBytes m := by
  constructor
  · intro h
    cases hl : limitError m with
    | none =>
      have hlim := limitError_eq_none.1 hl
      rw [encodeMessage_of_limits hlim] at h
      cases h
      exact ⟨hlim, rfl⟩
    | some e =>
      rw [encodeMessage_of_limitError hl] at h
      cases h
  · rintro ⟨hlim, rfl⟩
    exact encodeMessage_of_limits hlim

/-! ### Which message comes back -/

section
variable {m : Message}

/-- At boundary `k` of an encoding the entries from `k` on, the size prefix and the payload are unread. -/
theorem messageBytes_drop (m : Message) (k : Nat) :
    (messageBytes m).drop (entriesSize (m.headers.take k)) =
      entriesBytes (m.headers.drop k) ++ composePrefix m.headers.length m.payload.length ++ m.payload := by
  have hsplit : entriesBytes m.headers = entriesBytes (m.headers.take k) ++ entriesBytes (m.headers.drop k) := by
    rw [← entriesBytes_append, List.take_append_drop]
  rw [messageBytes, hsplit, List.append_assoc, List.append_assoc, ← entriesBytes_length, List.drop_left,
    ← List.append_assoc]

/-- `R_k`: the unread bytes of an encoding at boundary `k` (R112). -/
theorem messageBytes_unread (m : Message) (k : Nat) :
    (messageBytes m).length - entriesSize (m.headers.take k) =
      entriesSize (m.headers.drop k) + 3 + m.payload.length := by
  rw [← List.length_drop, messageBytes_drop]
  simp
  omega

/-- Entry `k` of an encoding is what the parser finds at boundary `k` (R108). -/
theorem parseEntry_messageBytes (hlim : m.limits) {k : Nat} {e : Entry} (he : m.headers[k]? = some e) :
    parseEntry (messageBytes m) (entriesSize (m.headers.take k)) = some e := by
  obtain ⟨hk, rfl⟩ := List.getElem?_eq_some_iff.1 he
  have hd := messageBytes_drop m k
  rw [List.drop_eq_getElem_cons hk, entriesBytes, List.append_assoc, List.append_assoc] at hd
  exact parseEntry_at_append (hlim.2.2 _ (List.getElem_mem hk)) hd

/-- The scan of an encoding reaches every boundary up to the first false stop (R108). -/
theorem reached_messageBytes (hlim : m.limits) {k : Nat} (hk : k ≤ m.headers.length)
    (hfs : ∀ j < k, ¬ m.falseStopAt j) :
    Reached (messageBytes m) (entriesSize (m.headers.take k)) (m.headers.take k) := by
  induction k with
  | zero => exact .start
  | succ k ih =>
    have hprev := ih (by omega) fun j hj => hfs j (by omega)
    have he : m.headers[k]? = some m.headers[k] := List.getElem?_eq_getElem hk
    have hlen : (m.headers.take k).length = k := List.length_take_of_le (by omega)
    have hv : visit (messageBytes m) (entriesSize (m.headers.take k)) (m.headers.take k).length =
        .entry m.headers[k] := by
      rw [hlen]
      refine visit_eq_entry.2 ⟨by have := hlim.1; omega, parseEntry_messageBytes hlim he, ?_⟩
      rw [messageBytes_unread]
      exact fun hstop => hfs k (by omega) ⟨_, he, hstop⟩
    rw [List.take_add_one, he, Option.toList_some, entriesSize_append]
    exact hprev.next hv

/-- At the first false stop the scan ends, with everything after three bytes as payload (R109). -/
theorem decodeBytes_of_first_falseStop (hlim : m.limits) {k : Nat} (hk : m.falseStopAt k)
    (hfs : ∀ j < k, ¬ m.falseStopAt j) :
    decodeBytes (messageBytes m) =
      .ok ⟨m.headers.take k, (messageBytes m).drop (entriesSize (m.headers.take k) + 3)⟩ := by
  have hle := (Message.falseStopAt_lt hk).le
  obtain ⟨e, he, hstop⟩ := hk
  refine (reached_messageBytes hlim hle hfs).decodeBytes_of_accept ?_
  rw [List.length_take_of_le hle]
  refine visit_falseStop (parseEntry_messageBytes hlim he) ?_
  rw [messageBytes_unread]
  exact hstop

/-- With no false stop the scan ends at the true size prefix (R110). -/
theorem decodeBytes_messageBytes (hlim : m.limits) (hp : m.payload.length ≤ Config.plenFieldMax)
    (hfs : ∀ j < m.headers.length, ¬ m.falseStopAt j) : decodeBytes (messageBytes m) = .ok m := by
  have hreach := reached_messageBytes hlim le_rfl hfs
  have hprefix := messageBytes_drop m m.headers.length
  simp only [List.take_length, List.drop_length, entriesBytes, List.nil_append] at hreach hprefix
  exact hreach.decodeBytes_of_accept (visit_eq_accept.2 ⟨hlim.1, hp, hprefix⟩)

end

/-- Settles O30: `ks` is the least boundary that is the true one or a false stop, and the scan ends at either kind. -/
theorem whichMessageComesBack : Obligations.WhichMessageComesBack := by
  classical
  intro m out hp hout
  obtain ⟨hlim, rfl⟩ := encodeMessage_eq_ok.1 hout
  have hex : ∃ k, k = m.headers.length ∨ m.falseStopAt k := ⟨_, .inl rfl⟩
  have hmin : ∀ k < Nat.find hex, ¬ m.falseStopAt k := fun k hk h => Nat.find_min hex hk (.inr h)
  have hwhole : Nat.find hex = m.headers.length → decodeBytes (messageBytes m) = .ok m :=
    fun hks => decodeBytes_messageBytes hlim hp (hks ▸ hmin)
  refine ⟨Nat.find hex, Nat.find_min' hex (.inl rfl), Nat.find_spec hex, hmin, ?_, hwhole⟩
  rcases Nat.find_spec hex with hks | hks
  · have hdrop : (messageBytes m).drop (entriesSize m.headers + 3) = m.payload := by
      have hprefix := messageBytes_drop m m.headers.length
      simp only [List.take_length, List.drop_length, entriesBytes, List.nil_append] at hprefix
      exact drop_append_add hprefix rfl
    rw [hwhole hks, hks, List.take_length, hdrop]
  · exact decodeBytes_of_first_falseStop hlim hks hmin

/-- Settles O31: a false stop before the size prefix leaves fewer entries, and a longer payload does not fit the field. -/
theorem roundTripExactlyOnItsDomain : Obligations.RoundTripExactlyOnItsDomain := by
  intro m out hout
  obtain ⟨hlim, rfl⟩ := encodeMessage_eq_ok.1 hout
  constructor
  · intro hdec
    have hp := (eq_messageBytes_of_decodeBytes hdec).2.1
    obtain ⟨ks, hle, -, hmin, hks, -⟩ := whichMessageComesBack m _ hp hout
    have hheaders : m.headers = m.headers.take ks := congrArg Message.headers (Result.ok.inj (hdec.symm.trans hks))
    have hlen := congrArg List.length hheaders
    rw [List.length_take_of_le hle] at hlen
    exact ⟨hp, hlen ▸ hmin⟩
  · rintro ⟨hp, hfs⟩
    exact decodeBytes_messageBytes hlim hp hfs

/-- Settles O32: an accepted buffer is the encoding of its message, on which the round trip is known exactly. -/
theorem acceptedSet : Obligations.AcceptedSet := by
  intro b m
  constructor
  · intro hdec
    have hout := reEncodingLaw b m hdec
    obtain ⟨hp, hfs⟩ := (roundTripExactlyOnItsDomain m b hout).1 hdec
    obtain ⟨⟨hc, -, hentries⟩, -⟩ := encodeMessage_eq_ok.1 hout
    exact ⟨hc, hp, hentries, hout, hfs⟩
  · rintro ⟨-, hp, -, hout, hfs⟩
    exact (roundTripExactlyOnItsDomain m b hout).2 ⟨hp, hfs⟩

end Sys2Proof.Machine
end

section
/-! One visit of a boundary with at least 3 bytes unread, one lemma for each way it can go (`41_decoder.md` R83 to R92). -/

namespace Sys2Proof

section
variable {b : Bytes} {pos k : Nat} {y0 y1 y2 : Byte} (hr : memRead b pos 3 = some [y0, y1, y2])
include hr

theorem visit_of_terminator (ht : terminator (prefixCnt y0) (prefixPlen y0 y1 y2) k (b.length - pos)) :
    visit b pos k = .accept (b.drop (pos + 3)) := by
  rw [visit_of_bytes hr, if_pos ht]

variable (ht : ¬ terminator (prefixCnt y0) (prefixPlen y0 y1 y2) k (b.length - pos))
include ht

theorem visit_of_cutOff (hk : k = Config.hdrMax) :
    visit b pos k = .fail (cutOffError (prefixCnt y0) (prefixPlen y0 y1 y2) (b.length - pos)) := by
  rw [visit_of_bytes hr, if_neg ht, if_pos hk]

theorem visit_of_parseEntry_some (hk : k ≠ Config.hdrMax) {e : Entry} (hp : parseEntry b pos = some e) :
    visit b pos k = .entry e := by
  rw [visit_of_bytes hr, if_neg ht, if_neg hk, hp]

theorem visit_of_parseEntry_none (hk : k ≠ Config.hdrMax) (hp : parseEntry b pos = none) :
    visit b pos k = .fail .truncatedInput := by
  rw [visit_of_bytes hr, if_neg ht, if_neg hk, hp]

end

end Sys2Proof
end

section
/-! DECODE against the loop of its pseudocode, `Scans` (`41_decoder.md` R83 to R93): one pass of the loop is one visit of
a boundary, so the two agree boundary by boundary. -/

namespace Sys2Proof.Machine

section
variable {b : Bytes} {pos : Nat}

/-- The entry parse, byte by byte: the name length overruns, the value overruns, or the entry is there (R88 to R91). -/
theorem parseEntry_cases {y0 y1 : Byte} {N : Nat} (h0 : b[pos]? = some y0) (h1 : b[pos + 1]? = some y1)
    (hN : N = (y0.toNat <<< 8) ||| y1.toNat) :
    (2 + N + 2 > b.length - pos ∧ parseEntry b pos = none) ∨
    ∃ z0 z1 M, 2 + N + 2 ≤ b.length - pos ∧ b[pos + 2 + N]? = some z0 ∧ b[pos + 3 + N]? = some z1 ∧
      M = (z0.toNat <<< 8) ||| z1.toNat ∧
      ((4 + N + M > b.length - pos ∧ parseEntry b pos = none) ∨
       (4 + N + M ≤ b.length - pos ∧
        parseEntry b pos = some ⟨(b.drop (pos + 2)).take N, (b.drop (pos + 4 + N)).take M⟩)) := by
  have hname : rd16 b pos = some N := hN ▸ rd16_of_bytes h0 h1
  obtain ⟨hpos, -⟩ := List.getElem?_eq_some_iff.1 h0
  by_cases hfit : 2 + N + 2 ≤ b.length - pos
  · have hz0 : pos + 2 + N < b.length := by omega
    have hz1 : pos + 3 + N < b.length := by omega
    have g0 := List.getElem?_eq_getElem hz0
    have g1 := List.getElem?_eq_getElem hz1
    have hvalue : rd16 b (pos + 2 + N) = _ :=
      rd16_of_bytes g0 (by rw [show pos + 2 + N + 1 = pos + 3 + N by omega]; exact g1)
    refine .inr ⟨_, _, _, hfit, g0, g1, rfl, ?_⟩
    by_cases hM : 4 + N + ((b[pos + 2 + N].toNat <<< 8) ||| b[pos + 3 + N].toNat) ≤ b.length - pos
    · exact .inr ⟨hM, parseEntry_of_fields hpos.le hname hvalue hM⟩
    · exact .inl ⟨by omega, parseEntry_value_overrun hname hvalue (by omega)⟩
  · exact .inl ⟨by omega, parseEntry_name_overrun hname (by omega)⟩

/-- The next boundary lies after the two lengths, the name and the value (R92). -/
theorem pos_add_size_of_fields {N M : Nat} (hpos : pos ≤ b.length) (hM : 4 + N + M ≤ b.length - pos) :
    pos + Entry.size ⟨(b.drop (pos + 2)).take N, (b.drop (pos + 4 + N)).take M⟩ = pos + 4 + N + M := by
  simp only [Entry.size, List.length_take, List.length_drop]
  omega

/-- One pass of the loop ends it or goes on at the next boundary, as the visit of this one says (R83). -/
theorem scans_iff_visit {k : Nat} {hdrs : List Entry} {r : Result Message} :
    Scans b pos k hdrs r ↔
      (∃ p, visit b pos k = .accept p ∧ r = .ok ⟨hdrs, p⟩) ∨
      (∃ e, visit b pos k = .fail e ∧ r = .err e) ∨
      (∃ e, visit b pos k = .entry e ∧ Scans b (pos + e.size) (k + 1) (hdrs ++ [e]) r) := by
  constructor
  · intro h
    cases h with
    | tooFew hR => exact .inr (.inl ⟨_, visit_few hR, rfl⟩)
    | stop h0 h1 h2 hcnt hplen =>
      exact .inl ⟨_, visit_of_terminator (memRead_three.2 ⟨h0, h1, h2⟩) ⟨hcnt, hplen⟩, rfl⟩
    | cutOff h0 h1 h2 ht hk =>
      exact .inr (.inl ⟨_, visit_of_cutOff (memRead_three.2 ⟨h0, h1, h2⟩) ht hk, rfl⟩)
    | nameOverrun h0 h1 h2 ht hk hN =>
      have hparse := parseEntry_name_overrun (rd16_of_bytes h0 h1) hN
      exact .inr (.inl ⟨_, visit_of_parseEntry_none (memRead_three.2 ⟨h0, h1, h2⟩) ht hk hparse, rfl⟩)
    | valueOverrun h0 h1 h2 ht hk hN hfit g0 g1 hM =>
      have hvalue := rd16_of_bytes g0 (by rw [← g1]; congr 1; omega)
      have hparse := parseEntry_value_overrun (hN ▸ rd16_of_bytes h0 h1) hvalue hM
      exact .inr (.inl ⟨_, visit_of_parseEntry_none (memRead_three.2 ⟨h0, h1, h2⟩) ht hk hparse, rfl⟩)
    | entry h0 h1 h2 ht hk hN hfit g0 g1 hM hfit' hnext =>
      have hpos := (List.getElem?_eq_some_iff.1 h0).1.le
      have hvalue := rd16_of_bytes g0 (by rw [← g1]; congr 1; omega)
      have hparse := parseEntry_of_fields hpos (hN ▸ rd16_of_bytes h0 h1) (hM ▸ hvalue) hfit'
      rw [← pos_add_size_of_fields hpos hfit'] at hnext
      exact .inr (.inr ⟨_, visit_of_parseEntry_some (memRead_three.2 ⟨h0, h1, h2⟩) ht hk hparse, hnext⟩)
  · intro h
    cases hr : memRead b pos 3 with
    | none =>
      have hfew : b.length - pos < 3 := by have := memRead_eq_none.1 hr; omega
      obtain rfl : r = .err .truncatedInput := by simpa [visit_few hfew] using h
      exact .tooFew hfew
    | some x =>
      obtain ⟨y0, y1, y2, rfl⟩ := three_bytes (memRead_length hr)
      obtain ⟨h0, h1, h2⟩ := memRead_three.1 hr
      by_cases ht : terminator (prefixCnt y0) (prefixPlen y0 y1 y2) k (b.length - pos)
      · obtain rfl : r = .ok ⟨hdrs, b.drop (pos + 3)⟩ := by simpa [visit_of_terminator hr ht] using h
        exact .stop h0 h1 h2 ht.1 ht.2
      by_cases hk : k = Config.hdrMax
      · obtain rfl : r = .err (cutOffError (prefixCnt y0) (prefixPlen y0 y1 y2) (b.length - pos)) := by
          simpa [visit_of_cutOff hr ht hk] using h
        exact .cutOff h0 h1 h2 ht hk
      obtain ⟨hN, hparse⟩ | ⟨z0, z1, M, hfit, g0, g1, hM, hcase⟩ := parseEntry_cases h0 h1 rfl
      · obtain rfl : r = .err .truncatedInput := by simpa [visit_of_parseEntry_none hr ht hk hparse] using h
        exact .nameOverrun h0 h1 h2 ht hk hN
      obtain ⟨hover, hparse⟩ | ⟨hfit', hparse⟩ := hcase
      · obtain rfl : r = .err .truncatedInput := by simpa [visit_of_parseEntry_none hr ht hk hparse] using h
        exact .valueOverrun h0 h1 h2 ht hk rfl hfit g0 g1 (hM ▸ hover)
      · have hpos := (List.getElem?_eq_some_iff.1 h0).1.le
        simp only [visit_of_parseEntry_some hr ht hk hparse, reduceCtorEq, false_and, exists_false, false_or,
          Visit.entry.injEq, exists_eq_left', pos_add_size_of_fields hpos hfit'] at h
        exact .entry h0 h1 h2 ht hk rfl hfit g0 g1 hM hfit' h

end

/-- The loop gives a result from the beginning exactly where it gives it from a boundary that the scan reaches. -/
theorem Reached.scans_iff {b : Bytes} {pos : Nat} {hdrs : List Entry} (h : Reached b pos hdrs) (r : Result Message) :
    Scans b 0 0 [] r ↔ Scans b pos hdrs.length hdrs r := by
  induction h with
  | start => rfl
  | next _ hv ih => rw [ih, scans_iff_visit, hv]; simp

/-- Settles O27: at the last boundary the loop and the scan both end as the visit of it says. -/
theorem decodeIsItsPseudocode : Obligations.DecodeIsItsPseudocode := by
  intro b r
  obtain ⟨pos, hdrs, h, hlast⟩ := exists_last_boundary b
  rw [h.scans_iff, scans_iff_visit]
  cases hv : visit b pos hdrs.length with
  | accept p => rw [h.decodeBytes_of_accept hv]; simp [eq_comm]
  | fail e => rw [h.decodeBytes_of_fail hv]; simp [eq_comm]
  | entry e => exact absurd hv (hlast e)

end Sys2Proof.Machine
end

section
/-! How long entries are (`30_encoding.md` section 5), and the two equations of a false stop (`45_codec_laws.md` section 2). -/

namespace Sys2Proof

theorem entriesSize_eq_sum (es : List Entry) :
    entriesSize es = (es.map fun e => 4 + e.name.length + e.value.length).sum := by
  induction es with
  | nil => rfl
  | cons e es ih => rw [entriesSize, ih, List.map_cons, List.sum_cons, Entry.size]

/-- An entry within the limits has at most `4 + 2 * 65535` bytes (R41, R64). -/
theorem entriesSize_le {es : List Entry} (h : ∀ e ∈ es, e.inLimits) : entriesSize es ≤ 131074 * es.length := by
  induction es with
  | nil => exact Nat.zero_le _
  | cons e es ih =>
    obtain ⟨hname, hvalue⟩ := h e (by simp)
    have hrest := ih fun e' he' => h e' (by simp [he'])
    simp only [entriesSize, Entry.size, List.length_cons, Config.fieldMax] at *
    omega

/-- The two sides of a false stop at the entry that stands at the boundary (R112). -/
theorem Message.falseStopAt_iff {m : Message} {k : Nat} {e : Entry} (he : m.headers[k]? = some e) :
    m.falseStopAt k ↔ e.name.length / 1024 = k ∧
      e.name.length % 1024 * 256 + e.thirdByte = entriesSize (m.headers.drop k) + m.payload.length := by
  simp only [Message.falseStopAt, he, Option.some.injEq, exists_eq_left', Entry.falseStop,
    Nat.shiftRight_eq_div_pow, Nat.reducePow]
  omega

theorem Entry.thirdByte_le {e : Entry} (h : e.value.length ≤ 65535) : e.thirdByte ≤ 255 := by
  unfold Entry.thirdByte
  split
  · rw [Nat.shiftRight_eq_div_pow]; omega
  · next y _ _ => exact Nat.le_of_lt_succ y.isLt

end Sys2Proof
end

section
/-! The other laws of DECODE (`45_codec_laws.md` sections 1 to 4, `41_decoder.md` section 6, `60_exceptions.md` section
1): the limits of a result, short, cut and extended buffers, Malformed, and when a false stop cannot arise. -/

namespace Sys2Proof.Machine

/-! ### Lengths -/

/-- Settles O23: 63 entries of `4 + 2 * 65535` bytes, 3 bytes and 262144 more are the 8519809. -/
theorem encodedLength : Obligations.EncodedLength := by
  intro m out h
  obtain ⟨⟨hc, hp, hentries⟩, rfl⟩ := encodeMessage_eq_ok.1 h
  have hsize := entriesSize_le hentries
  simp only [Config.hdrMax, Config.payloadMax] at hc hp
  rw [messageBytes_length, ← entriesSize_eq_sum]
  omega

/-- Settles O29: the buffer is the encoding of its message, whose payload has one byte less than ENCODE's largest. -/
theorem decodeResultWithinLimits : Obligations.DecodeResultWithinLimits := by
  intro b m h
  obtain ⟨⟨hc, -, hentries⟩, hp, rfl⟩ := eq_messageBytes_of_decodeBytes h
  have hsize := entriesSize_le hentries
  refine ⟨hc, hentries, hp, ?_⟩
  simp only [Config.hdrMax, Config.plenFieldMax] at hc hp
  rw [messageBytes_length]
  omega

/-! ### Buffers that are not the encoding -/

/-- DECODE gives a message for no buffer but its encoding. -/
theorem decodeBytes_ne_ok_of_ne {m : Message} {out b : Bytes} (hout : encodeMessage m = .ok out) (hne : b ≠ out) :
    decodeBytes b ≠ .ok m := by
  intro h
  rw [reEncodingLaw b m h] at hout
  exact hne (Result.ok.inj hout)

theorem decodeBytes_few {b : Bytes} (h : b.length < 3) : decodeBytes b = .err .truncatedInput :=
  Reached.start.decodeBytes_of_fail (visit_few (by omega))

/-- Settles O35: by the re-encoding law a proper prefix would have to be the encoding itself. -/
theorem truncationLaw : Obligations.TruncationLaw :=
  fun _ _ cut hout _ hne => ⟨decodeBytes_ne_ok_of_ne hout hne, reEncodingLaw cut, decodeBytes_few⟩

/-- Settles O37: by the re-encoding law the longer buffer would have to be the encoding itself. -/
theorem extensionLaw : Obligations.ExtensionLaw :=
  fun _ _ _ hout htail => ⟨decodeBytes_ne_ok_of_ne hout (by simpa using htail), reEncodingLaw _⟩

/-- Settles O25: the length has 19 bits, so its top bit falls into the count, and the round trip ends at 18 bits. -/
theorem payloadOf262144IsEncodedButNotRecovered : Obligations.PayloadOf262144IsEncodedButNotRecovered := by
  intro m hlim hp
  have hout := encodeMessage_of_limits hlim
  refine ⟨messageBytes m, hout, by rw [messageBytes_length, hp], ?_, ?_⟩
  · have hprefix := messageBytes_drop m m.headers.length
    simp only [List.take_length, List.drop_length, entriesBytes, List.nil_append, hp] at hprefix
    exact hprefix
  · intro hdec
    have hle := ((roundTripExactlyOnItsDomain m _ hout).1 hdec).1
    omega

/-- Settles O40: 3 bytes hold no entry, so they are the empty message's size prefix or nothing. -/
theorem shortBuffers : Obligations.ShortBuffers := by
  refine fun b => ⟨decodeBytes_few, fun hlen => ?_⟩
  split
  · next hb => subst hb; decide
  · next hb =>
    obtain ⟨y0, y1, y2, rfl⟩ := three_bytes hlen
    have hr : memRead [y0, y1, y2] 0 3 = some [y0, y1, y2] := rfl
    have ht : ¬ terminator (prefixCnt y0) (prefixPlen y0 y1 y2) 0 ([y0, y1, y2].length - 0) := by
      rintro ⟨hcnt, hplen : prefixPlen y0 y1 y2 = 0⟩
      have hbytes := composePrefix_of_bytes y0 y1 y2
      rw [hcnt, hplen] at hbytes
      exact hb (hbytes.symm.trans (by decide))
    have hparse : parseEntry [y0, y1, y2] 0 = none := by
      refine Option.eq_none_iff_forall_ne_some.2 fun e he => ?_
      have hsize := (parseEntry_eq_some.1 he).2.1
      have hfour := e.four_le_size
      simp only [List.length_cons, List.length_nil] at hsize
      omega
    exact Reached.start.decodeBytes_of_fail (visit_of_parseEntry_none hr ht (by decide) hparse)

/-! ### Malformed -/

/-- After the cut-off the error is Malformed exactly where neither the terminator test nor the test for a longer
payload holds (R87, R132). -/
theorem visit_eq_malformed {b : Bytes} {pos k : Nat} :
    visit b pos k = .fail .malformed ↔ k = 63 ∧ ∃ y0 y1 y2, memRead b pos 3 = some [y0, y1, y2] ∧
      ¬ (prefixCnt y0 = 63 ∧ prefixPlen y0 y1 y2 ≥ b.length - pos - 3) := by
  cases hr : memRead b pos 3 with
  | none =>
    rw [visit_few (by have := memRead_eq_none.1 hr; omega)]
    simp
  | some x =>
    obtain ⟨y0, y1, y2, rfl⟩ := three_bytes (memRead_length hr)
    have hbytes : (∃ z0 z1 z2, some [y0, y1, y2] = some [z0, z1, z2] ∧
        ¬ (prefixCnt z0 = 63 ∧ prefixPlen z0 z1 z2 ≥ b.length - pos - 3)) ↔
        ¬ (prefixCnt y0 = 63 ∧ prefixPlen y0 y1 y2 ≥ b.length - pos - 3) :=
      ⟨fun ⟨_, _, _, he, h⟩ => by cases he; exact h, fun h => ⟨_, _, _, rfl, h⟩⟩
    rw [hbytes]
    by_cases ht : terminator (prefixCnt y0) (prefixPlen y0 y1 y2) k (b.length - pos)
    · rw [visit_of_terminator hr ht]
      obtain ⟨hcnt, hplen⟩ := ht
      simp
      omega
    by_cases hk : k = Config.hdrMax
    · rw [visit_of_cutOff hr ht hk, cutOffError]
      simp only [terminator, hk, Config.hdrMax] at ht ⊢
      split <;> simp <;> omega
    · have hne : visit b pos k ≠ .fail .malformed := by
        cases hp : parseEntry b pos with
        | some e => rw [visit_of_parseEntry_some hr ht hk hp]; simp
        | none => rw [visit_of_parseEntry_none hr ht hk hp]; simp
      simp [hne, hk]

/-- Settles O38: the error is that of the last boundary's visit. -/
theorem malformedOnlyAfter63Entries : Obligations.MalformedOnlyAfter63Entries := by
  intro b
  simp only [decodeBytes_eq_err, visit_eq_malformed]
  constructor
  · rintro ⟨pos, hdrs, h, hk, y0, y1, y2, hr, ht⟩
    exact ⟨pos, hdrs, y0, y1, y2, h, hk, hr, ht⟩
  · rintro ⟨pos, hdrs, y0, y1, y2, h, hk, hr, ht⟩
    exact ⟨pos, hdrs, h, hk, y0, y1, y2, hr, ht⟩

/-! ### Conditions against false stops -/

/-- Settles O34: each condition contradicts one of the two equations of a false stop. -/
theorem conditionsAgainstFalseStops : Obligations.ConditionsAgainstFalseStops := by
  intro m
  refine ⟨fun hnil k hk => ?_, fun k e he => ⟨fun hN hk => ?_, fun hgt hk => ?_, fun hlt hvalue hk => ?_⟩,
    fun hnames k hk => ?_, fun e es hes hname hshort hlen hk => ?_⟩
  · have := Message.falseStopAt_lt hk
    simp [hnil] at this
  · rw [Nat.shiftRight_eq_div_pow] at hN
    exact hN ((Message.falseStopAt_iff he).1 hk).1
  · have := ((Message.falseStopAt_iff he).1 hk).2
    omega
  · have hthird := Entry.thirdByte_le hvalue
    have := ((Message.falseStopAt_iff he).1 hk).2
    omega
  · have hlt := Message.falseStopAt_lt hk
    have hshort := hnames _ (List.getElem_mem hlt)
    have := ((Message.falseStopAt_iff (List.getElem?_eq_getElem hlt)).1 hk).1
    omega
  · have he : m.headers[0]? = some e := by rw [hes]; rfl
    have hpos := List.length_pos_iff.2 hname
    have := ((Message.falseStopAt_iff he).1 hk).2
    rw [List.drop_zero] at this
    omega

end Sys2Proof.Machine
end

section
/-! Two encodings worked out by the laws (`45_codec_laws.md` sections 2 and 3): one that two messages share, and one
that a cut turns into another message's. Neither depends on the bytes of the value, only on its length. -/

namespace Sys2Proof.Machine

theorem limits_of_one_header {name value : Bytes} (hname : name.length ≤ Config.fieldMax)
    (hvalue : value.length ≤ Config.fieldMax) : Message.limits ⟨[⟨name, value⟩], []⟩ :=
  ⟨by simp, Nat.zero_le _, by simpa using ⟨hname, hvalue⟩⟩

theorem limits_of_no_headers {p : Bytes} (hp : p.length ≤ Config.payloadMax) : Message.limits ⟨[], p⟩ :=
  ⟨Nat.zero_le _, hp, by simp⟩

/-- A message with no headers comes back, whatever its payload is (R113). -/
theorem decodeBytes_of_no_headers {p : Bytes} (hp : p.length ≤ Config.plenFieldMax) :
    decodeBytes (messageBytes ⟨[], p⟩) = .ok ⟨[], p⟩ :=
  decodeBytes_messageBytes (limits_of_no_headers (hp.trans (by decide))) hp fun _ hj => absurd hj (Nat.not_lt_zero _)

/-- A header 00 with 251 value bytes begins with the size prefix of no entries and 256 payload bytes. -/
theorem messageBytes_header_251 {v : Bytes} (hv : v.length = 251) :
    messageBytes ⟨[⟨[0x00], v⟩], []⟩ = messageBytes ⟨[], [0x00, 0xfb] ++ v ++ [0x04, 0x00, 0x00]⟩ := by
  simp [messageBytes, entriesBytes, entryBytes, be16, composePrefix, hv]

/-- With 252 value bytes the same prefix is one byte short of the end. -/
theorem messageBytes_header_252 {v : Bytes} (hv : v.length = 252) :
    messageBytes ⟨[⟨[0x00], v⟩], []⟩ = messageBytes ⟨[], [0x00, 0xfc] ++ v ++ [0x04, 0x00]⟩ ++ [0x00] := by
  simp [messageBytes, entriesBytes, entryBytes, be16, composePrefix, hv]

/-- Settles O33: the first bytes of the one header are a false stop, at which DECODE ends. -/
theorem twoMessagesOneEncoding : Obligations.TwoMessagesOneEncoding := by
  obtain ⟨v, hv⟩ : ∃ v : Bytes, v = List.replicate 251 0 := ⟨_, rfl⟩
  have hlen : v.length = 251 := by rw [hv, List.length_replicate]
  have hlimA : Message.limits ⟨[], [0x00, 0xfb] ++ v ++ [0x04, 0x00, 0x00]⟩ := limits_of_no_headers (by simp [Config.payloadMax, hlen])
  have hlimB : Message.limits ⟨[⟨[0x00], v⟩], []⟩ := limits_of_one_header (by simp) (by simp [Config.fieldMax, hlen])
  refine ⟨_, _, _, by simp, ⟨hlimA, by simp⟩, ⟨hlimB, by simp⟩, ?_, by rw [hv], by rw [hv],
    encodeMessage_of_limits hlimA, ?_, decodeBytes_of_no_headers (by simp [Config.plenFieldMax, hlen])⟩
  · simp [entriesSize, hlen]
  · rw [encodeMessage_of_limits hlimB, messageBytes_header_251 hlen]

/-- Settles O36: one more value byte makes the first boundary no false stop, and the cut makes it one again. -/
theorem aTruncatedEncodingThatDecodes : Obligations.ATruncatedEncodingThatDecodes := by
  obtain ⟨v, hv⟩ : ∃ v : Bytes, v = List.replicate 252 0 := ⟨_, rfl⟩
  have hlen : v.length = 252 := by rw [hv, List.length_replicate]
  have hlim : Message.limits ⟨[⟨[0x00], v⟩], []⟩ := limits_of_one_header (by simp) (by simp [Config.fieldMax, hlen])
  have hcut : (messageBytes ⟨[⟨[0x00], v⟩], []⟩).take 259 = messageBytes ⟨[], [0x00, 0xfc] ++ v ++ [0x04, 0x00]⟩ := by
    rw [messageBytes_header_252 hlen]
    exact List.take_left' (by simp [entriesSize, hlen])
  refine ⟨_, _, by rw [hv], encodeMessage_of_limits hlim, by simp [entriesSize, Entry.size, hlen], ?_, ?_⟩
  · refine decodeBytes_messageBytes hlim (Nat.zero_le _) fun k hk => ?_
    obtain rfl : k = 0 := by simpa using hk
    rw [Message.falseStopAt_iff (e := ⟨[0x00], v⟩) rfl]
    simp [entriesSize, Entry.size, Entry.thirdByte, hlen]
  · rw [hcut, decodeBytes_of_no_headers (by simp [Config.plenFieldMax, hlen])]
    rfl

end Sys2Proof.Machine
end

section
/-! The status codes and their inverse (`60_exceptions.md` section 1), and when a message is ambiguous
(`45_codec_laws.md` section 2). -/

namespace Sys2Proof

theorem Status.code_of_belongsTo_enc {st : Status} (h : st.belongsTo .enc = true) : st.code ≤ 3 := by
  revert h
  cases st with
  | ok => decide
  | error e => cases e <;> decide

theorem Status.code_of_belongsTo_dec {st : Status} (h : st.belongsTo .dec = true) :
    st.code = 0 ∨ st.code = 4 ∨ st.code = 5 := by
  revert h
  cases st with
  | ok => decide
  | error e => cases e <;> decide

theorem Status.ofCode_code (st : Status) : Status.ofCode st.code = some st := by
  cases st with
  | ok => rfl
  | error e => cases e <;> rfl

theorem Status.code_lt (st : Status) : st.code < 8 := by
  cases st with
  | ok => decide
  | error e => cases e <;> decide

theorem Message.ambiguous_eq_false_iff_lt (m : Message) :
    m.ambiguous = false ↔ ∀ k < m.headers.length, ¬ m.falseStopAt k := by
  rw [Message.ambiguous_eq_false]
  exact ⟨fun h k _ => h k, fun h k hk => h k (Message.falseStopAt_lt hk) hk⟩

end Sys2Proof
end

section
/-! ENCODE as its checks and its closed form (`40_encoder.md` sections 2 to 4, `45_codec_laws.md` section 5), and the
status codes that each unit's results have (`60_exceptions.md` section 1). -/

namespace Sys2Proof.Machine

/-! ### The field error -/

theorem any_fieldOverLimit {es : List Entry} :
    es.any fieldOverLimit = true ↔ ∃ e ∈ es, e.name.length > 65535 ∨ e.value.length > 65535 := by
  simp [fieldOverLimit, Config.fieldMax]

theorem limitError_eq_limitField {m : Message} :
    limitError m = some .limitField ↔ m.headers.length ≤ 63 ∧ m.payload.length ≤ 262144 ∧
      ∃ e ∈ m.headers, e.name.length > 65535 ∨ e.value.length > 65535 := by
  rw [← any_fieldOverLimit]
  simp only [limitError, Config.hdrMax, Config.payloadMax]
  split_ifs with hh hp hf
  · simp; omega
  · simp; omega
  · simp [hf]; omega
  · simp [hf]

/-- Settles O22: ENCODE succeeds where no check fails, and its field error is that of the last check. -/
theorem encodeLimitEnforcement : Obligations.EncodeLimitEnforcement := by
  refine fun m => ⟨?_, encodeMessage_eq_err.trans limitError_eq_limitField⟩
  simp only [encodeMessage_eq_ok, exists_and_left, exists_eq, and_true]

/-! ### The pseudocode of ENCODE -/

theorem entriesBytes_eq_flatMap_fields (es : List Entry) :
    entriesBytes es = es.flatMap fun e =>
      [BitVec.ofNat 8 (e.name.length >>> 8), BitVec.ofNat 8 (e.name.length &&& 0xFF)] ++ e.name ++
      [BitVec.ofNat 8 (e.value.length >>> 8), BitVec.ofNat 8 (e.value.length &&& 0xFF)] ++ e.value :=
  entriesBytes_eq_flatMap es

/-- Settles O19: each branch of the pseudocode is a value of `limitError`, the last one `messageBytes`. -/
theorem encodeIsItsPseudocode : Obligations.EncodeIsItsPseudocode := by
  intro s
  rw [exec_encode, State.deliverEnc]
  congr 4
  split_ifs with hh hp hf
  · exact encodeMessage_eq_err.2 (limitError_eq_limitHeaders.2 hh)
  · exact encodeMessage_eq_err.2 (limitError_eq_limitPayload.2 ⟨not_lt.1 hh, hp⟩)
  · exact encodeMessage_eq_err.2 (limitError_eq_limitField.2 ⟨not_lt.1 hh, not_lt.1 hp, hf⟩)
  · have hlim : s.encPort.limits :=
      ⟨not_lt.1 hh, not_lt.1 hp, by simpa [Entry.inLimits, Config.fieldMax, imp_and, forall_and] using hf⟩
    rw [encodeMessage_of_limits hlim, messageBytes, entriesBytes_eq_flatMap_fields]
    rfl

/-! ### Status codes -/

theorem limitError_belongsTo_enc {m : Message} {e : CodecError} (h : limitError m = some e) :
    (Status.error e).belongsTo .enc = true := by
  unfold limitError at h
  split_ifs at h <;> cases h <;> rfl

theorem decodeBytes_err_belongsTo_dec {b : Bytes} {e : CodecError} (h : decodeBytes b = .err e) :
    (Status.error e).belongsTo .dec = true :=
  belongsTo_dec_of_decodeFrom_err h

/-- The status of an ENCODE result is one of the ENC unit's (R128). -/
theorem resultStatus_encodeMessage_belongsTo (m : Message) :
    (resultStatus (encodeMessage m)).belongsTo .enc = true := by
  cases h : encodeMessage m with
  | ok out => rfl
  | err e => exact limitError_belongsTo_enc (encodeMessage_eq_err.1 h)

/-- The status of a DECODE result is one of the DEC unit's (R128). -/
theorem resultStatus_decodeBytes_belongsTo (b : Bytes) : (resultStatus (decodeBytes b)).belongsTo .dec = true := by
  cases h : decodeBytes b with
  | ok m => rfl
  | err e => exact decodeBytes_err_belongsTo_dec h

/-- Settles O39: the code is that of a status of the unit. -/
theorem eachUnitProducesItsOwnCodes : Obligations.EachUnitProducesItsOwnCodes := by
  refine ⟨fun m => ?_, fun b => ?_⟩
  · have hcode := Status.code_of_belongsTo_enc (resultStatus_encodeMessage_belongsTo m)
    rw [resultCode, BitVec.toNat_ofNat]
    omega
  · simp only [resultCode]
    obtain hcode | hcode | hcode := Status.code_of_belongsTo_dec (resultStatus_decodeBytes_belongsTo b) <;>
      simp [hcode]

end Sys2Proof.Machine
end

section
/-! The decoder against the encoder, row by row (`30_encoding.md` sections 1 to 4 and 7, `45_codec_laws.md` sections 4 and 6). -/

namespace Sys2Proof.Machine

/-! ### Reads of the words of a field -/

theorem rd16_be16 {n : Nat} (h : n < 65536) : rd16 (be16 n) 0 = some n :=
  rd16_eq_some.2 ⟨h, le_rfl, by simp [be16]⟩

theorem be16_append_of_rd16 {b : Bytes} {n : Nat} (h : rd16 b 0 = some n) : be16 (BitVec.ofNat 16 n).toNat ++ b.drop 2 = b := by
  obtain ⟨hn, -, hd⟩ := rd16_eq_some.1 h
  rw [be16_ofNat_toNat (Nat.le_of_lt_succ hn)]
  exact hd.symm

theorem ofNat_prefixCnt (y0 : Byte) : (BitVec.ofNat 6 (prefixCnt y0)).toNat = prefixCnt y0 :=
  Nat.mod_eq_of_lt (Nat.lt_succ_of_le (prefixCnt_le y0))

theorem ofNat_prefixPlen (y0 y1 y2 : Byte) : (BitVec.ofNat 18 (prefixPlen y0 y1 y2)).toNat = prefixPlen y0 y1 y2 :=
  Nat.mod_eq_of_lt (Nat.lt_succ_of_le (prefixPlen_le y0 y1 y2))

theorem parseEntry_entryBytes {e : Entry} (he : e.inLimits) : parseEntry (entryBytes e) 0 = some e :=
  parseEntry_at_append he (rest := []) (by simp)

/-- The three composed bytes of a count and a length that fit are read as they are (R117). -/
theorem decode_composePrefix (u : Agent) {c p : Nat} (hc : c ≤ Config.hdrMax) (hp : p ≤ Config.plenFieldMax) :
    decode (.field u .sizePrefix) (composePrefix c p) =
      .instr (.sizePrefix u (BitVec.ofNat 6 c) (BitVec.ofNat 18 p)) [] := by
  obtain ⟨y0, y1, y2, hy⟩ := three_bytes (composePrefix_length c p)
  obtain ⟨hcnt, hplen⟩ := extract_composePrefix hc hp hy
  rw [hy, decode_sizePrefix, hcnt, hplen]

/-- Settles O9: extracting undoes composing, and a length of 262144 composes the bytes of the count with its bit 0 set. -/
theorem packingLaw : Obligations.PackingLaw := by
  intro c p y0 y1 y2 hc hp hy
  have hy : [y0, y1, y2] = composePrefix c p := hy
  rw [hy]
  constructor
  · intro hp'
    exact decode_composePrefix .dec hc hp'
  · rintro rfl
    have hc' : c ||| 1 ≤ Config.hdrMax := Nat.le_of_lt_succ (Nat.or_lt_two_pow (n := 6) (Nat.lt_succ_of_le hc) (by decide))
    exact (congrArg _ (composePrefix_payloadMax c hc)).trans (decode_composePrefix .dec hc' (Nat.zero_le _))

/-- The messages that are read back are the decodable ones, each from its own bytes (R110, R120). -/
theorem decodeBytes_eq_ok_iff_decodable {b : Bytes} {m : Message} :
    decodeBytes b = .ok m ↔ m.decodable ∧ b = messageBytes m := by
  rw [acceptedSet, encodeMessage_eq_ok, Message.decodable, Message.ambiguous_eq_false_iff_lt]
  constructor
  · rintro ⟨-, hp, -, ⟨hlim, hb⟩, hfs⟩
    exact ⟨⟨hlim, hp, hfs⟩, hb⟩
  · rintro ⟨⟨hlim, hp, hfs⟩, hb⟩
    exact ⟨hlim.1, hp, hlim.2.2, ⟨hlim, hb⟩, hfs⟩

/-- Settles O2: row by row the reader undoes the writer; for MESSAGE this is the accepted set. -/
theorem decodeOfEncodeIsTheInstruction : Obligations.DecodeOfEncodeIsTheInstruction := by
  intro i hwf
  cases i with
  | encode => rfl
  | decode => rfl
  | headerEntry u nm val =>
    have he : Entry.inLimits ⟨nm, val⟩ := of_decide_eq_true hwf
    have hdrop : (entryBytes ⟨nm, val⟩).drop (Entry.size ⟨nm, val⟩) = [] :=
      List.drop_eq_nil_of_le (entryBytes_length _).le
    simp only [Instr.position, encode, decode, decodeField, parseEntry_entryBytes he, hdrop]
  | nameLen u n =>
    simp only [Instr.position, encode, decode, decodeField, rd16_be16 n.isLt]
    simp [be16]
  | name u bytes => exact if_pos (of_decide_eq_true hwf)
  | valueLen u m =>
    simp only [Instr.position, encode, decode, decodeField, rd16_be16 m.isLt]
    simp [be16]
  | value u bytes => exact if_pos (of_decide_eq_true hwf)
  | sizePrefix u cnt plen =>
    rw [Instr.position, encode, decode_composePrefix u (Nat.le_of_lt_succ cnt.isLt) (Nat.le_of_lt_succ plen.isLt)]
    simp
  | payload u bytes => exact if_pos (of_decide_eq_true hwf)
  | message u m =>
    have hdec : decodeBytes (messageBytes m) = .ok m :=
      decodeBytes_eq_ok_iff_decodable.2 ⟨of_decide_eq_true hwf, rfl⟩
    simp only [Instr.position, encode, decode, decodeField, hdec]
  | status u st =>
    have hbelongs : st.belongsTo u = true := hwf
    have hcode : (BitVec.ofNat 8 st.code).toNat % 8 = st.code := by
      have := st.code_lt
      rw [BitVec.toNat_ofNat]
      omega
    simp only [Instr.position, encode, decode, decodeField, hcode, Status.ofCode_code, hbelongs, if_true]

/-- Settles O3: row by row the words written are the bytes read; for MESSAGE this is the accepted set. -/
theorem acceptedFieldBytesAreTheWords : Obligations.AcceptedFieldBytesAreTheWords := by
  intro u f bs rest i hf h
  simp only [decode, decodeField] at h
  cases f with
  | headerEntry =>
    cases hp : parseEntry bs 0 with
    | none => rw [hp] at h; cases h
    | some e =>
      rw [hp] at h
      cases h
      obtain ⟨he, -, hd⟩ := parseEntry_eq_some.1 hp
      rw [Nat.zero_add] at hd
      exact ⟨hd.symm, rfl, decide_eq_true he⟩
  | nameLen =>
    cases hn : rd16 bs 0 with
    | none => rw [hn] at h; cases h
    | some n =>
      rw [hn] at h
      cases h
      exact ⟨be16_append_of_rd16 hn, rfl, rfl⟩
  | name =>
    dsimp only at h
    split at h <;> cases h
    exact ⟨List.append_nil _, rfl, decide_eq_true ‹_›⟩
  | valueLen =>
    cases hm : rd16 bs 0 with
    | none => rw [hm] at h; cases h
    | some m =>
      rw [hm] at h
      cases h
      exact ⟨be16_append_of_rd16 hm, rfl, rfl⟩
  | value =>
    dsimp only at h
    split at h <;> cases h
    exact ⟨List.append_nil _, rfl, decide_eq_true ‹_›⟩
  | sizePrefix =>
    match bs, h with
    | y0 :: y1 :: y2 :: tail, h =>
      cases h
      refine ⟨?_, rfl, rfl⟩
      rw [encode, ofNat_prefixCnt, ofNat_prefixPlen, composePrefix_of_bytes]
      rfl
  | payload =>
    dsimp only at h
    split at h <;> cases h
    exact ⟨List.append_nil _, rfl, decide_eq_true ‹_›⟩
  | message =>
    cases hdec : decodeBytes bs with
    | err e => rw [hdec] at h; cases h
    | ok m =>
      rw [hdec] at h
      cases h
      obtain ⟨hm, rfl⟩ := decodeBytes_eq_ok_iff_decodable.1 hdec
      exact ⟨List.append_nil _, rfl, decide_eq_true hm⟩
  | status => exact absurd rfl hf

end Sys2Proof.Machine
end

section
/-! Which unit an instruction is of (`30_encoding.md` section 7). -/

namespace Sys2Proof

/-- Every instruction is one of the two operations or a row of one of the two units. -/
theorem Instr.unit_cases (i : Instr) :
    i = .encode ∨ i = .decode ∨ (∃ f, i.position = .field .enc f) ∨ ∃ f, i.position = .field .dec f := by
  cases i with
  | encode => exact .inl rfl
  | decode => exact .inr (.inl rfl)
  | headerEntry u | nameLen u | name u | valueLen u | value u | sizePrefix u | payload u | message u | status u =>
    cases u
    · exact .inr (.inr (.inl ⟨_, rfl⟩))
    · exact .inr (.inr (.inr ⟨_, rfl⟩))

/-- No instruction is one of both units. -/
theorem Instr.not_both_units {i : Instr} (hE : i = .encode ∨ ∃ f, i.position = .field .enc f)
    (hD : i = .decode ∨ ∃ f, i.position = .field .dec f) : False := by
  obtain rfl | ⟨f, hf⟩ := hE
  · obtain h | ⟨g, h⟩ := hD <;> cases h
  · obtain rfl | ⟨g, hg⟩ := hD
    · cases hf
    · rw [hf] at hg
      cases hg

end Sys2Proof
end

section
/-! What the format rows do to a unit (`40_encoder.md` sections 2 and 3, `41_decoder.md` sections 2 and 3,
`60_exceptions.md` section 1): each is one transfer of its unit, with an operation in progress the transfer that the
row's own function gives, and on an idle unit nothing. -/

namespace Sys2Proof.Machine

/-! ### A transfer as an outcome -/

section
variable {s : State}

theorem next_moveEnc_idle (f : EncVars → Move EncVars Bytes) (h : s.enc = none) :
    (.next (s.moveEnc f) : Host.Outcome State Fault Refusal) = .next s := by
  rw [State.moveEnc_idle f h]

theorem next_moveDec_idle (f : DecVars → Move DecVars Message) (h : s.dec = none) :
    (.next (s.moveDec f) : Host.Outcome State Fault Refusal) = .next s := by
  rw [State.moveDec_idle f h]

theorem next_moveEnc_go {v v' : EncVars} {f : EncVars → Move EncVars Bytes} (h : s.enc = some v) (hf : f v = .go v') :
    (.next (s.moveEnc f) : Host.Outcome State Fault Refusal) = .next { s with enc := some v' } := by
  rw [State.moveEnc_go h hf]

theorem next_moveEnc_done {v : EncVars} {r : Result Bytes} {f : EncVars → Move EncVars Bytes} (h : s.enc = some v)
    (hf : f v = .done r) : (.next (s.moveEnc f) : Host.Outcome State Fault Refusal) = .next (s.deliverEnc r) := by
  rw [State.moveEnc_done h hf]

theorem next_moveDec_go {v v' : DecVars} {f : DecVars → Move DecVars Message} (h : s.dec = some v) (hf : f v = .go v') :
    (.next (s.moveDec f) : Host.Outcome State Fault Refusal) = .next { s with dec := some v' } := by
  rw [State.moveDec_go h hf]

theorem next_moveDec_done {v : DecVars} {r : Result Message} {f : DecVars → Move DecVars Message} (h : s.dec = some v)
    (hf : f v = .done r) : (.next (s.moveDec f) : Host.Outcome State Fault Refusal) = .next (s.deliverDec r) := by
  rw [State.moveDec_done h hf]

end

/-! ### Every row of a unit is a transfer of that unit -/

theorem exec_status_enc {st : Status} (h : st.belongsTo .enc = true) (s : State) :
    exec (.status .enc st) s = .next (s.moveEnc (endEncode st)) :=
  if_pos h

theorem exec_status_dec {st : Status} (h : st.belongsTo .dec = true) (s : State) :
    exec (.status .dec st) s = .next (s.moveDec (endDecode st)) :=
  if_pos h

theorem exec_status_of_not_belongsTo {u : Agent} {st : Status} (h : st.belongsTo u = false) (s : State) :
    exec (.status u st) s = .refused .statusOfOtherUnit :=
  if_neg (by rw [h]; decide)

/-- A row of the ENC unit is one transfer of it, but a status that is none of its own. -/
theorem exec_field_enc {i : Instr} {f : Format} (hpos : i.position = .field .enc f) :
    (∃ move, ∀ s, exec i s = .next (s.moveEnc move)) ∨
    (i.wellFormed = false ∧ ∀ s, exec i s = .refused .statusOfOtherUnit) := by
  cases i with
  | encode => cases hpos
  | decode => cases hpos
  | status u st =>
    cases hpos
    cases hst : st.belongsTo .enc with
    | true => exact .inl ⟨_, exec_status_enc hst⟩
    | false => exact .inr ⟨hst, exec_status_of_not_belongsTo hst⟩
  | _ => cases hpos; exact .inl ⟨_, fun _ => rfl⟩

/-- A row of the DEC unit is one transfer of it, but a status that is none of its own. -/
theorem exec_field_dec {i : Instr} {f : Format} (hpos : i.position = .field .dec f) :
    (∃ move, ∀ s, exec i s = .next (s.moveDec move)) ∨
    (i.wellFormed = false ∧ ∀ s, exec i s = .refused .statusOfOtherUnit) := by
  cases i with
  | encode => cases hpos
  | decode => cases hpos
  | status u st =>
    cases hpos
    cases hst : st.belongsTo .dec with
    | true => exact .inl ⟨_, exec_status_dec hst⟩
    | false => exact .inr ⟨hst, exec_status_of_not_belongsTo hst⟩
  | _ => cases hpos; exact .inl ⟨_, fun _ => rfl⟩

/-- Settles O43: the status is checked before the unit is looked at. -/
theorem statusOfTheOtherUnitIsRefused : Obligations.StatusOfTheOtherUnitIsRefused :=
  fun _ _ s h => exec_status_of_not_belongsTo h s

theorem exec_field_enc_of_wellFormed {i : Instr} {f : Format} (hpos : i.position = .field .enc f)
    (hwf : i.wellFormed = true) : ∃ move, ∀ s, exec i s = .next (s.moveEnc move) :=
  (exec_field_enc hpos).resolve_right fun ⟨hill, _⟩ => Bool.false_ne_true (hill.symm.trans hwf)

theorem exec_field_dec_of_wellFormed {i : Instr} {f : Format} (hpos : i.position = .field .dec f)
    (hwf : i.wellFormed = true) : ∃ move, ∀ s, exec i s = .next (s.moveDec move) :=
  (exec_field_dec hpos).resolve_right fun ⟨hill, _⟩ => Bool.false_ne_true (hill.symm.trans hwf)

/-- Settles O42: an operation always answers, a row of a unit is a transfer, and the refused status is ill formed. -/
theorem everyWellFormedInstructionCompletes : Obligations.EveryWellFormedInstructionCompletes := by
  intro i s hwf
  obtain rfl | rfl | ⟨f, hpos⟩ | ⟨f, hpos⟩ := Instr.unit_cases i
  · exact ⟨_, exec_encode s⟩
  · exact ⟨_, exec_decode s⟩
  · obtain ⟨move, hmove⟩ := exec_field_enc_of_wellFormed hpos hwf
    exact ⟨_, hmove s⟩
  · obtain ⟨move, hmove⟩ := exec_field_dec_of_wellFormed hpos hwf
    exact ⟨_, hmove s⟩

/-- Settles O52: a transfer of an idle unit changes nothing. -/
theorem fieldOnAnIdleUnitChangesNothing : Obligations.FieldOnAnIdleUnitChangesNothing := by
  refine fun i f s hwf => ⟨fun hpos hidle => ?_, fun hpos hidle => ?_⟩
  · obtain ⟨move, hmove⟩ := exec_field_enc_of_wellFormed hpos hwf
    rw [hmove, State.moveEnc_idle move hidle]
  · obtain ⟨move, hmove⟩ := exec_field_dec_of_wellFormed hpos hwf
    rw [hmove, State.moveDec_idle move hidle]

/-! ### What stays as it is -/

/-- From `s` to `t` only the ENC unit has moved: it may have delivered results. -/
structure State.OnlyEncMoved (s t : State) : Prop where
  encPort : t.encPort = s.encPort
  decPort : t.decPort = s.decPort
  pending : t.pending = s.pending
  encResults : s.encResults <+: t.encResults
  dec : t.dec = s.dec
  decResults : t.decResults = s.decResults

/-- From `s` to `t` only the DEC unit has moved: it may have delivered results. -/
structure State.OnlyDecMoved (s t : State) : Prop where
  encPort : t.encPort = s.encPort
  decPort : t.decPort = s.decPort
  pending : t.pending = s.pending
  decResults : s.decResults <+: t.decResults
  enc : t.enc = s.enc
  encResults : t.encResults = s.encResults

theorem State.onlyEncMoved_moveEnc (s : State) (f : EncVars → Move EncVars Bytes) : s.OnlyEncMoved (s.moveEnc f) := by
  obtain ⟨-, hmove⟩ | ⟨v, v', -, -, hmove⟩ | ⟨v, r, -, -, hmove⟩ := s.moveEnc_cases f <;> rw [hmove]
  · exact ⟨rfl, rfl, rfl, List.prefix_rfl, rfl, rfl⟩
  · exact ⟨rfl, rfl, rfl, List.prefix_rfl, rfl, rfl⟩
  · exact ⟨rfl, rfl, rfl, List.prefix_append .., rfl, rfl⟩

theorem State.onlyDecMoved_moveDec (s : State) (f : DecVars → Move DecVars Message) : s.OnlyDecMoved (s.moveDec f) := by
  obtain ⟨-, hmove⟩ | ⟨v, v', -, -, hmove⟩ | ⟨v, r, -, -, hmove⟩ := s.moveDec_cases f <;> rw [hmove]
  · exact ⟨rfl, rfl, rfl, List.prefix_rfl, rfl, rfl⟩
  · exact ⟨rfl, rfl, rfl, List.prefix_rfl, rfl, rfl⟩
  · exact ⟨rfl, rfl, rfl, List.prefix_append .., rfl, rfl⟩

theorem onlyEncMoved_of_exec {i : Instr} {s t : State} (hi : i = .encode ∨ ∃ f, i.position = .field .enc f)
    (h : exec i s = .next t) : s.OnlyEncMoved t := by
  obtain rfl | ⟨f, hpos⟩ := hi
  · cases h
    exact ⟨by simp, by simp, by simp, s.finish_enc_encResults.trans (by simp), by simp, by simp⟩
  · obtain ⟨move, hmove⟩ | ⟨-, hrefused⟩ := exec_field_enc hpos
    · rw [hmove] at h
      cases h
      exact s.onlyEncMoved_moveEnc move
    · rw [hrefused] at h
      cases h

theorem onlyDecMoved_of_exec {i : Instr} {s t : State} (hi : i = .decode ∨ ∃ f, i.position = .field .dec f)
    (h : exec i s = .next t) : s.OnlyDecMoved t := by
  obtain rfl | ⟨f, hpos⟩ := hi
  · cases h
    exact ⟨by simp, by simp, by simp, s.finish_dec_decResults.trans (by simp), by simp, by simp⟩
  · obtain ⟨move, hmove⟩ | ⟨-, hrefused⟩ := exec_field_dec hpos
    · rw [hmove] at h
      cases h
      exact s.onlyDecMoved_moveDec move
    · rw [hrefused] at h
      cases h

/-- Settles O54: an instruction is one of the ENC unit or of the DEC unit, and only that unit moves. -/
theorem anInstructionTouchesOnlyItsUnit : Obligations.AnInstructionTouchesOnlyItsUnit := by
  intro i s t h
  have hunit : (i = .encode ∨ ∃ f, i.position = .field .enc f) ∨ (i = .decode ∨ ∃ f, i.position = .field .dec f) := by
    obtain h | h | h | h := Instr.unit_cases i
    · exact .inl (.inl h)
    · exact .inr (.inl h)
    · exact .inl (.inr h)
    · exact .inr (.inr h)
  obtain hi | hi := hunit
  · have hmoved := onlyEncMoved_of_exec hi h
    exact ⟨hmoved.encPort, hmoved.decPort, hmoved.pending, hmoved.encResults, hmoved.decResults ▸ List.prefix_rfl,
      fun _ => ⟨hmoved.dec, hmoved.decResults⟩, fun hi' => (Instr.not_both_units hi hi').elim⟩
  · have hmoved := onlyDecMoved_of_exec hi h
    exact ⟨hmoved.encPort, hmoved.decPort, hmoved.pending, hmoved.encResults ▸ List.prefix_rfl, hmoved.decResults,
      fun hi' => (Instr.not_both_units hi' hi).elim, fun _ => ⟨hmoved.enc, hmoved.encResults⟩⟩

/-! ### The ENC unit writes -/

/-- The three bytes of a count of 6 bits and a length of 18 bits as slices of both in a row (R45). -/
theorem composePrefix_toNat (cnt : BitVec 6) (plen : BitVec 18) :
    composePrefix cnt.toNat plen.toNat =
      [(cnt ++ plen).extractLsb' 16 8, plen.extractLsb' 8 8, plen.extractLsb' 0 8] := by
  have hplen := plen.isLt
  have happend : (cnt ++ plen).toNat = cnt.toNat * 262144 + plen.toNat := by
    rw [BitVec.toNat_append, ← Nat.shiftLeft_add_eq_or_of_lt hplen, Nat.shiftLeft_eq]
  rw [composePrefix_eq _ _ (Nat.le_of_lt_succ hplen)]
  simp only [List.cons.injEq, and_true]
  refine ⟨?_, ?_, ?_⟩ <;> apply BitVec.eq_of_toNat_eq <;>
    simp only [BitVec.toNat_ofNat, BitVec.extractLsb'_toNat, Nat.shiftRight_eq_div_pow, happend] <;> omega

theorem emitHeaderEntry_of_limits {e : Entry} {v : EncVars} (he : e.inLimits) (hi : v.i < Config.hdrMax) :
    emitHeaderEntry e v = .go { v with out := emit v.out (entryBytes e), i := v.i + 1, due := .boundary } :=
  (if_neg (not_le.2 hi)).trans (if_neg (by rw [fieldOverLimit_eq_false.2 he]; decide))

theorem emitMessage_of_limits {m : Message} (hm : m.limits) (v : EncVars) :
    emitMessage m v = .go { v with out := emit v.out (messageBytes m), i := m.headers.length, due := .status } := by
  simp only [emitMessage, limitError_eq_none.2 hm]

/-- Settles O44: within the limits each row's function goes on with its bytes appended. -/
theorem encWritesEntryFields : Obligations.EncWritesEntryFields := by
  intro s v hv
  refine ⟨fun n hi => ?_, fun bytes hb => ?_, fun m => ?_, fun bytes hb => ?_, fun nm val hi hnm hval => ?_⟩
  · rw [← be16_toNat]
    exact next_moveEnc_go hv (if_neg (not_le.2 hi))
  · exact next_moveEnc_go hv (if_neg (not_lt.2 hb))
  · rw [← be16_toNat]
    exact next_moveEnc_go hv rfl
  · exact next_moveEnc_go hv (if_neg (not_lt.2 hb))
  · exact next_moveEnc_go hv (emitHeaderEntry_of_limits ⟨hnm, hval⟩ hi)

/-- Settles O45: the three bytes, the payload and the message's bytes are appended as they are. -/
theorem encWritesMessageFields : Obligations.EncWritesMessageFields := by
  refine fun s v hv => ⟨fun cnt plen => ?_, fun bytes hb => ?_, fun m out hout => ?_⟩
  · rw [← composePrefix_toNat]
    exact next_moveEnc_go hv rfl
  · exact next_moveEnc_go hv (if_neg (not_lt.2 hb))
  · obtain ⟨hlim, rfl⟩ := encodeMessage_eq_ok.1 hout
    exact next_moveEnc_go hv (emitMessage_of_limits hlim v)

/-- Settles O46: each row's function raises the error of its own limit. -/
theorem encWriteBeyondALimitRaises : Obligations.EncWriteBeyondALimitRaises := by
  intro s v hv
  refine ⟨fun n hi => ?_, fun nm val hi => ?_, fun nm val hi hlong => ?_, fun bytes hb => ⟨?_, ?_⟩, fun bytes hb => ?_,
    fun m e herr => ?_⟩
  · exact next_moveEnc_done hv (if_pos hi)
  · exact next_moveEnc_done hv (if_pos hi)
  · have hfields : fieldOverLimit ⟨nm, val⟩ = true := by simpa [fieldOverLimit, Config.fieldMax] using hlong
    exact next_moveEnc_done hv ((if_neg (not_le.2 hi)).trans (if_pos hfields))
  · exact next_moveEnc_done hv (if_pos hb)
  · exact next_moveEnc_done hv (if_pos hb)
  · exact next_moveEnc_done hv (if_pos hb)
  · refine next_moveEnc_done hv ?_
    simp only [emitMessage, encodeMessage_eq_err.1 herr]
    rfl

/-! ### The DEC unit reads -/

/-- The value's overrun check covers the name's (R89, R91). -/
theorem readHeaderEntry_of_overrun {e : Entry} {v : DecVars} (h : 4 + e.name.length + e.value.length > v.unread) :
    readHeaderEntry e v = .done (.err .truncatedInput) := by
  by_cases hname : 2 + e.name.length + 2 > v.unread
  · exact if_pos hname
  · exact (if_neg hname).trans (if_pos h)

theorem readHeaderEntry_of_fits {e : Entry} {v : DecVars} (h : 4 + e.name.length + e.value.length ≤ v.unread) :
    readHeaderEntry e v = .go (v.accept e e.name.length e.value.length) :=
  (if_neg (by omega)).trans (if_neg (not_lt.2 h))

/-- Settles O47: each row's function makes its overrun check and goes on with what it has read. -/
theorem decReadsEntryFields : Obligations.DecReadsEntryFields := by
  refine fun s v hv => ⟨fun n => ?_, fun bytes => next_moveDec_go hv rfl, fun m => ?_,
    fun bytes => next_moveDec_go hv rfl, fun nm val => ?_⟩
  · split
    · next h => exact next_moveDec_done hv (if_pos h)
    · next h => exact next_moveDec_go hv (if_neg h)
  · split
    · next h => exact next_moveDec_done hv (if_pos h)
    · next h => exact next_moveDec_go hv (if_neg h)
  · split
    · next h => exact next_moveDec_done hv (readHeaderEntry_of_overrun h)
    · next h => exact next_moveDec_go hv (readHeaderEntry_of_fits (not_lt.1 h))

/-- Settles O49: the four outcomes of `readSizePrefix`, in its order. -/
theorem decReadsTheSizePrefix : Obligations.DecReadsTheSizePrefix := by
  intro s v cnt plen hv
  have hcnt : cnt = 63 ↔ cnt.toNat = Config.hdrMax := BitVec.toNat_inj.symm
  split_ifs with hfew ht hk herr
  · exact next_moveDec_done hv (if_pos hfew)
  · exact next_moveDec_go hv ((if_neg hfew).trans (if_pos ht))
  · refine next_moveDec_done hv ((if_neg hfew).trans ((if_neg ht).trans ((if_pos hk).trans ?_)))
    rw [cutOffError, if_pos ⟨hcnt.1 herr.1, herr.2⟩]
    rfl
  · refine next_moveDec_done hv ((if_neg hfew).trans ((if_neg ht).trans ((if_pos hk).trans ?_)))
    rw [cutOffError, if_neg fun h => herr ⟨hcnt.2 h.1, h.2⟩]
    rfl
  · exact next_moveDec_go hv ((if_neg hfew).trans ((if_neg ht).trans (if_neg hk)))

/-- Settles O50: both rows keep what was read. -/
theorem decReadsPayloadAndMessage : Obligations.DecReadsPayloadAndMessage :=
  fun _ _ hv => ⟨fun _ => next_moveDec_go hv rfl, fun _ => next_moveDec_go hv rfl⟩

/-- Settles O51: a status of the unit itself ends its operation, with the value or with the error. -/
theorem statusEndsTheOperation : Obligations.StatusEndsTheOperation := by
  refine ⟨fun s v hv => ⟨next_moveEnc_done hv rfl, ?_⟩, fun s v hv => ⟨next_moveDec_done hv rfl, ?_⟩⟩
  · rintro e (rfl | rfl | rfl) <;> exact next_moveEnc_done hv rfl
  · rintro e (rfl | rfl) <;> exact next_moveDec_done hv rfl

/-! ### An entry in one transfer or in four -/

/-- The four fields in a row append the bytes of the entry (R41). -/
theorem emit_four_fields (out : Bytes) {e : Entry} (he : e.inLimits) :
    emit (emit (emit (emit out (be16 (BitVec.ofNat 16 e.name.length).toNat)) e.name)
      (be16 (BitVec.ofNat 16 e.value.length).toNat)) e.value = emit out (entryBytes e) := by
  rw [be16_ofNat_toNat he.1, be16_ofNat_toNat he.2]
  simp only [emit, entryBytes, List.append_assoc]

/-- Settles O53: on an idle unit all five change nothing; else the four transfers leave what the one leaves. -/
theorem headerEntryIsItsFourFields : Obligations.HeaderEntryIsItsFourFields := by
  intro u s nm val hnm hval hencRoom hdecRoom
  cases u with
  | enc =>
    cases hv : s.enc with
    | none =>
      exact ⟨s, s, s, next_moveEnc_idle _ hv, next_moveEnc_idle _ hv, next_moveEnc_idle _ hv,
        (next_moveEnc_idle _ hv).trans (next_moveEnc_idle _ hv).symm⟩
    | some v =>
      have hi : v.i < 63 := hencRoom v rfl hv
      refine ⟨_, _, _, next_moveEnc_go hv (if_neg (not_le.2 hi)), next_moveEnc_go rfl (if_neg (not_lt.2 hnm)),
        next_moveEnc_go rfl rfl, ?_⟩
      refine Eq.trans (next_moveEnc_go rfl (if_neg (not_lt.2 hval))) ?_
      refine Eq.trans ?_ (next_moveEnc_go hv (emitHeaderEntry_of_limits (e := ⟨nm, val⟩) ⟨hnm, hval⟩ hi)).symm
      rw [← emit_four_fields v.out (e := ⟨nm, val⟩) ⟨hnm, hval⟩]
  | dec =>
    cases hv : s.dec with
    | none =>
      exact ⟨s, s, s, next_moveDec_idle _ hv, next_moveDec_idle _ hv, next_moveDec_idle _ hv,
        (next_moveDec_idle _ hv).trans (next_moveDec_idle _ hv).symm⟩
    | some v =>
      have hfits : 4 + nm.length + val.length ≤ v.unread := hdecRoom v rfl hv
      have hn : (BitVec.ofNat 16 nm.length).toNat = nm.length := Nat.mod_eq_of_lt (Nat.lt_succ_of_le hnm)
      have hm : (BitVec.ofNat 16 val.length).toNat = val.length := Nat.mod_eq_of_lt (Nat.lt_succ_of_le hval)
      refine ⟨_, _, _, next_moveDec_go hv (if_neg (by rw [hn]; omega)), next_moveDec_go rfl rfl,
        next_moveDec_go rfl (if_neg ?_), ?_⟩
      · simp only [hn, hm, DecVars.unread] at hfits ⊢
        omega
      · refine Eq.trans (next_moveDec_go rfl rfl) ?_
        refine Eq.trans ?_ (next_moveDec_go hv (readHeaderEntry_of_fits (e := ⟨nm, val⟩) hfits)).symm
        simp only [DecVars.accept, hn, hm]

end Sys2Proof.Machine
end

section
/-! One transfer of an ENCODE in progress (`40_encoder.md` sections 2 and 3): from sound working variables it delivers
the result of the whole operation, or leaves sound ones that need fewer transfers. -/

namespace Sys2Proof.Machine

/-- How many transfers end an ENCODE at the latest: four fields for each entry that is left, then the size prefix, the
payload and the status. An operand of more than 63 entries is found out at the first transfer (log entry 3). -/
def EncVars.left (v : EncVars) : Nat :=
  4 * (min Config.hdrMax v.operand.headers.length - v.i) +
    match v.due with
    | .boundary => 3
    | .name => 2
    | .valueLen => 1
    | .value => 0
    | .payload => 2
    | .status => 1

theorem EncVars.left_le (v : EncVars) : v.left ≤ 255 := by
  unfold EncVars.left
  split <;> simp only [Config.hdrMax] <;> omega

/-! ### Soundness, one lemma for each field that can be due -/

theorem EncVars.start_sound (m : Message) : (EncVars.start m).Sound := by
  cases h : limitError m with
  | some e => simp only [EncVars.Sound, EncVars.start, h]
  | none => simp [EncVars.Sound, EncVars.start, h, entriesBytes]

section
variable {m : Message} {i : Nat} {out : Bytes} (hlim : m.limits)
include hlim

theorem EncVars.sound_boundary :
    EncVars.Sound ⟨m, i, out, .boundary⟩ ↔ i ≤ m.headers.length ∧ out = entriesBytes (m.headers.take i) := by
  simp only [EncVars.Sound, limitError_eq_none.2 hlim]

theorem EncVars.sound_name :
    EncVars.Sound ⟨m, i, out, .name⟩ ↔
      ∃ e, m.headers[i]? = some e ∧ out = entriesBytes (m.headers.take i) ++ be16 e.name.length := by
  simp only [EncVars.Sound, limitError_eq_none.2 hlim]

theorem EncVars.sound_valueLen :
    EncVars.Sound ⟨m, i, out, .valueLen⟩ ↔
      ∃ e, m.headers[i]? = some e ∧ out = entriesBytes (m.headers.take i) ++ be16 e.name.length ++ e.name := by
  simp only [EncVars.Sound, limitError_eq_none.2 hlim]

theorem EncVars.sound_value :
    EncVars.Sound ⟨m, i, out, .value⟩ ↔ ∃ e, m.headers[i]? = some e ∧
      out = entriesBytes (m.headers.take i) ++ be16 e.name.length ++ e.name ++ be16 e.value.length := by
  simp only [EncVars.Sound, limitError_eq_none.2 hlim]

theorem EncVars.sound_payload :
    EncVars.Sound ⟨m, i, out, .payload⟩ ↔ i = m.headers.length ∧
      out = entriesBytes (m.headers.take i) ++ composePrefix m.headers.length m.payload.length := by
  simp only [EncVars.Sound, limitError_eq_none.2 hlim]

theorem EncVars.sound_status :
    EncVars.Sound ⟨m, i, out, .status⟩ ↔ i = m.headers.length ∧ out = messageBytes m := by
  simp only [EncVars.Sound, limitError_eq_none.2 hlim]

end

/-- Sound working variables need at least one more transfer: the status. -/
theorem EncVars.Sound.left_pos {v : EncVars} (hv : v.Sound) : 0 < v.left := by
  obtain ⟨m, i, out, due⟩ := v
  cases due with
  | value =>
    cases hl : limitError m with
    | none =>
      have hlim := limitError_eq_none.1 hl
      obtain ⟨e, he, -⟩ := (EncVars.sound_value hlim).1 hv
      have hi := (List.getElem?_eq_some_iff.1 he).1
      have hc := hlim.1
      simp only [EncVars.left]
      omega
    | some e =>
      simp only [EncVars.Sound, hl] at hv
      cases hv
  | _ => simp only [EncVars.left]; omega

/-! ### What a transfer leaves -/

/-- The outcome of a transfer of the ENCODE `v` in state `s`: the result of the whole operation is delivered, or the
operation goes on, sound and closer to its end. -/
def EncVars.Advances (v : EncVars) (s : State) (o : Host.Outcome State Fault Refusal) : Prop :=
  o = .next (s.deliverEnc (encodeMessage v.operand)) ∨
  ∃ v', o = .next { s with enc := some v' } ∧ v'.Sound ∧ v'.operand = v.operand ∧ v'.left < v.left

section
variable {s : State} {v v' : EncVars} {move : EncVars → Move EncVars Bytes} (hs : s.enc = some v)
include hs

theorem EncVars.advances_of_go (hmove : move v = .go v') (hsound : v'.Sound) (hoperand : v'.operand = v.operand)
    (hleft : v'.left < v.left) : v.Advances s (.next (s.moveEnc move)) :=
  .inr ⟨v', next_moveEnc_go hs hmove, hsound, hoperand, hleft⟩

theorem EncVars.advances_of_done (hmove : move v = .done (encodeMessage v.operand)) :
    v.Advances s (.next (s.moveEnc move)) :=
  .inl (next_moveEnc_done hs hmove)

end

/-- The entries up to and including entry `i`. -/
theorem entriesBytes_take_succ {es : List Entry} {i : Nat} {e : Entry} (he : es[i]? = some e) :
    entriesBytes (es.take (i + 1)) = entriesBytes (es.take i) ++ entryBytes e := by
  rw [List.take_add_one, he, entriesBytes_append]
  simp [entriesBytes]

/-- The row of the size prefix stands for the three composed bytes, also for 262144 payload bytes (R67, R75). -/
theorem sizePrefixInstr_eq (u : Agent) (c p : Nat) :
    ∃ cnt plen, sizePrefixInstr u c p = .sizePrefix u cnt plen ∧
      composePrefix cnt.toNat plen.toNat = composePrefix c p := by
  obtain ⟨y0, y1, y2, hy⟩ := three_bytes (composePrefix_length c p)
  refine ⟨BitVec.ofNat 6 (prefixCnt y0), BitVec.ofNat 18 (prefixPlen y0 y1 y2), ?_, ?_⟩
  · simp only [sizePrefixInstr, hy]
  · rw [ofNat_prefixCnt, ofNat_prefixPlen, composePrefix_of_bytes, hy]

section
variable {s : State} {m : Message} {i : Nat} {out : Bytes} {due : EncDue} (hs : s.enc = some ⟨m, i, out, due⟩)
  (hv : EncVars.Sound ⟨m, i, out, due⟩) (hlim : m.limits)
include hs hv hlim

/-- A transfer within the entries: the next field of entry `i`, or all of it (R65, R66). -/
theorem EncVars.advances_inEntries {e : Entry} (he : m.headers[i]? = some e) (g : Grain) :
    EncVars.Advances ⟨m, i, out, due⟩ s (exec (EncVars.inEntries ⟨m, i, out, due⟩ e g) s) := by
  have hi : i < m.headers.length := (List.getElem?_eq_some_iff.1 he).1
  have hc : m.headers.length ≤ 63 := hlim.1
  have hroom : i < Config.hdrMax := by simp only [Config.hdrMax]; omega
  have hentry : e.inLimits := hlim.2.2 e (List.mem_of_getElem? he)
  cases due with
  | boundary =>
    obtain ⟨-, rfl⟩ := (EncVars.sound_boundary hlim).1 hv
    have hwhole : EncVars.Advances ⟨m, i, entriesBytes (m.headers.take i), .boundary⟩ s
        (exec (.headerEntry .enc e.name e.value) s) :=
      EncVars.advances_of_go hs (emitHeaderEntry_of_limits hentry hroom)
        ((EncVars.sound_boundary hlim).2 ⟨hi, (entriesBytes_take_succ he).symm⟩) rfl
        (by simp only [EncVars.left]; omega)
    cases g with
    | field =>
      exact EncVars.advances_of_go hs (if_neg (not_le.2 hroom))
        ((EncVars.sound_name hlim).2 ⟨e, he, by rw [be16_ofNat_toNat hentry.1]; rfl⟩) rfl
        (by simp only [EncVars.left]; omega)
    | entry => exact hwhole
    | whole => exact hwhole
  | name =>
    obtain ⟨e', he', rfl⟩ := (EncVars.sound_name hlim).1 hv
    obtain rfl : e = e' := Option.some.inj (he.symm.trans he')
    exact EncVars.advances_of_go hs (if_neg (not_lt.2 hentry.1))
      ((EncVars.sound_valueLen hlim).2 ⟨e, he, rfl⟩) rfl (by simp only [EncVars.left]; omega)
  | valueLen =>
    obtain ⟨e', he', rfl⟩ := (EncVars.sound_valueLen hlim).1 hv
    obtain rfl : e = e' := Option.some.inj (he.symm.trans he')
    exact EncVars.advances_of_go hs rfl
      ((EncVars.sound_value hlim).2 ⟨e, he, by rw [be16_ofNat_toNat hentry.2]; rfl⟩) rfl
      (by simp only [EncVars.left]; omega)
  | value =>
    obtain ⟨e', he', rfl⟩ := (EncVars.sound_value hlim).1 hv
    obtain rfl : e = e' := Option.some.inj (he.symm.trans he')
    refine EncVars.advances_of_go hs (if_neg (not_lt.2 hentry.2))
      ((EncVars.sound_boundary hlim).2 ⟨hi, ?_⟩) rfl (by simp only [EncVars.left]; omega)
    rw [entriesBytes_take_succ he]
    simp only [emit, entryBytes, List.append_assoc]
  | payload =>
    have := ((EncVars.sound_payload hlim).1 hv).1
    omega
  | status =>
    have := ((EncVars.sound_status hlim).1 hv).1
    omega

/-- A transfer after the last entry: the size prefix, the payload, or the result (R65, R69). -/
theorem EncVars.advances_afterEntries (hi : m.headers.length ≤ i) :
    EncVars.Advances ⟨m, i, out, due⟩ s (exec (EncVars.afterEntries ⟨m, i, out, due⟩) s) := by
  have hnone : m.headers[i]? = none := List.getElem?_eq_none hi
  cases due with
  | boundary =>
    obtain ⟨hle, rfl⟩ := (EncVars.sound_boundary hlim).1 hv
    obtain ⟨cnt, plen, hinstr, hbytes⟩ := sizePrefixInstr_eq .enc m.headers.length m.payload.length
    change EncVars.Advances _ s (exec (sizePrefixInstr .enc m.headers.length m.payload.length) s)
    rw [hinstr]
    exact EncVars.advances_of_go hs rfl
      ((EncVars.sound_payload hlim).2 ⟨le_antisymm hle hi, by rw [hbytes]; rfl⟩) rfl
      (by simp only [EncVars.left]; omega)
  | payload =>
    obtain ⟨rfl, rfl⟩ := (EncVars.sound_payload hlim).1 hv
    refine EncVars.advances_of_go hs (if_neg (not_lt.2 hlim.2.1)) ((EncVars.sound_status hlim).2 ⟨rfl, ?_⟩) rfl
      (by simp only [EncVars.left]; omega)
    rw [List.take_length]
    rfl
  | status =>
    obtain ⟨-, rfl⟩ := (EncVars.sound_status hlim).1 hv
    exact EncVars.advances_of_done hs (congrArg Move.done (encodeMessage_of_limits hlim).symm)
  | name =>
    obtain ⟨e, he, -⟩ := (EncVars.sound_name hlim).1 hv
    rw [hnone] at he
    cases he
  | valueLen =>
    obtain ⟨e, he, -⟩ := (EncVars.sound_valueLen hlim).1 hv
    rw [hnone] at he
    cases he
  | value =>
    obtain ⟨e, he, -⟩ := (EncVars.sound_value hlim).1 hv
    rw [hnone] at he
    cases he

/-- The whole message as one transfer, where nothing is out yet (R61, R65). -/
theorem EncVars.advances_message (hi : i = 0) (hdue : due = .boundary) :
    EncVars.Advances ⟨m, i, out, due⟩ s (exec (.message .enc m) s) := by
  subst hi hdue
  obtain ⟨-, rfl⟩ := (EncVars.sound_boundary hlim).1 hv
  exact EncVars.advances_of_go hs (emitMessage_of_limits hlim _) ((EncVars.sound_status hlim).2 ⟨rfl, rfl⟩) rfl
    (by simp only [EncVars.left]; omega)

end

/-- Every transfer of a sound ENCODE, of whatever grain, brings it closer to the result of the whole operation. -/
theorem EncVars.fetch_advances {s : State} {v : EncVars} (hs : s.enc = some v) (hv : v.Sound) (g : Grain) :
    v.Advances s (exec (v.fetch g) s) := by
  obtain ⟨m, i, out, due⟩ := v
  unfold EncVars.fetch
  split
  · next e hl =>
    rw [exec_status_enc (limitError_belongsTo_enc hl)]
    exact EncVars.advances_of_done hs (congrArg Move.done (encodeMessage_of_limitError hl).symm)
  · next hl =>
    have hlim := limitError_eq_none.1 hl
    split
    · next hwhole => exact EncVars.advances_message hs hv hlim hwhole.2.1 hwhole.2.2
    · split
      · next e he => exact EncVars.advances_inEntries hs hv hlim he g
      · next hnone => exact EncVars.advances_afterEntries hs hv hlim (List.getElem?_eq_none_iff.1 hnone)

end Sys2Proof.Machine
end

section
/-! One transfer of a DECODE in progress (`41_decoder.md` sections 2 and 3): from sound working variables it delivers
the result of the whole operation, or leaves sound ones that need fewer transfers. -/

namespace Sys2Proof.Machine

/-- How many transfers end a DECODE at the latest: a size prefix and four fields for each entry that can still be
parsed, then the last size prefix, the payload and the status. -/
def DecVars.left (v : DecVars) : Nat :=
  match v.due with
  | .boundary => 5 * (Config.hdrMax - v.k) + 3
  | .nameLen => 5 * (Config.hdrMax - v.k) + 2
  | .name => 5 * (Config.hdrMax - v.k) + 1
  | .valueLen => 5 * (Config.hdrMax - v.k)
  | .value => 5 * (Config.hdrMax - v.k) - 1
  | .payload => 2
  | .status => 1

theorem DecVars.left_le (v : DecVars) : v.left ≤ 318 := by
  simp only [DecVars.left, Config.hdrMax]
  split <;> omega

theorem DecVars.start_sound (b : Bytes) : (DecVars.start b).Sound := ⟨.start, rfl, trivial⟩

/-! ### A boundary at which an entry is to be parsed -/

section
variable {v : DecVars} (h : v.AtEntry)
include h

theorem DecVars.AtEntry.visit_entry {e : Entry} (hp : parseEntry v.buffer v.pos = some e) :
    visit v.buffer v.pos v.k = .entry e := by
  obtain ⟨hk, y0, y1, y2, hr, ht⟩ := h
  exact visit_of_parseEntry_some hr ht hk.ne hp

theorem DecVars.AtEntry.visit_fail (hp : parseEntry v.buffer v.pos = none) :
    visit v.buffer v.pos v.k = .fail .truncatedInput := by
  obtain ⟨hk, y0, y1, y2, hr, ht⟩ := h
  exact visit_of_parseEntry_none hr ht hk.ne hp

theorem DecVars.AtEntry.three_unread : v.pos + 3 ≤ v.buffer.length := by
  obtain ⟨-, y0, y1, y2, hr, -⟩ := h
  exact (memRead_iff_append.1 hr).1

end

/-- The entry the parser finds at the boundary is accepted (R92). -/
theorem DecVars.accept_sound {v : DecVars} {e : Entry} (hreach : Reached v.buffer v.pos v.hdrs)
    (hk : v.k = v.hdrs.length) (hentry : v.AtEntry) (hp : parseEntry v.buffer v.pos = some e) :
    (v.accept e e.name.length e.value.length).Sound := by
  have hvisit := hentry.visit_entry hp
  have hnext := hreach.next (hk ▸ hvisit)
  refine ⟨?_, ?_, trivial⟩
  · simpa only [DecVars.accept, Entry.size, Nat.add_assoc] using hnext
  · simp only [DecVars.accept, List.length_append, List.length_singleton, hk]

/-- Sound working variables need at least one more transfer: the status. -/
theorem DecVars.Sound.left_pos {v : DecVars} (hv : v.Sound) : 0 < v.left := by
  obtain ⟨b, pos, k, hdrs, n, name, m, p, due⟩ := v
  obtain ⟨-, -, hdue⟩ := hv
  cases due with
  | valueLen =>
    have hk := hdue.1.1
    simp only [DecVars.left] at hk ⊢
    omega
  | value =>
    have hk := hdue.1.1
    simp only [DecVars.left] at hk ⊢
    omega
  | _ => simp only [DecVars.left]; omega

/-! ### What a transfer leaves -/

/-- The outcome of a transfer of the DECODE `v` in state `s`: the result of the whole operation is delivered, or the
operation goes on, sound and closer to its end. -/
def DecVars.Advances (v : DecVars) (s : State) (o : Host.Outcome State Fault Refusal) : Prop :=
  o = .next (s.deliverDec (decodeBytes v.buffer)) ∨
  ∃ v', o = .next { s with dec := some v' } ∧ v'.Sound ∧ v'.buffer = v.buffer ∧ v'.left < v.left

section
variable {s : State} {v v' : DecVars} {move : DecVars → Move DecVars Message} (hs : s.dec = some v)
include hs

theorem DecVars.advances_of_go (hmove : move v = .go v') (hsound : v'.Sound) (hbuffer : v'.buffer = v.buffer)
    (hleft : v'.left < v.left) : v.Advances s (.next (s.moveDec move)) :=
  .inr ⟨v', next_moveDec_go hs hmove, hsound, hbuffer, hleft⟩

theorem DecVars.advances_of_done (hmove : move v = .done (decodeBytes v.buffer)) :
    v.Advances s (.next (s.moveDec move)) :=
  .inl (next_moveDec_done hs hmove)

/-- An error that DECODE of the buffer gives is delivered by its status. -/
theorem DecVars.advances_status_error {e : CodecError} (herr : decodeBytes v.buffer = .err e) :
    v.Advances s (exec (.status .dec (.error e)) s) := by
  rw [exec_status_dec (decodeBytes_err_belongsTo_dec herr)]
  exact DecVars.advances_of_done hs (by rw [herr]; rfl)

end

/-! ### The fields as they are read from the buffer -/

theorem fieldOrTruncated_of_decode {f : Format} {bytes rest : Bytes} {i : Instr}
    (h : decode (.field .dec f) bytes = .instr i rest) : fieldOrTruncated f (some bytes) = i := by
  simp only [fieldOrTruncated, h]

theorem fieldOrTruncated_sizePrefix (y0 y1 y2 : Byte) :
    fieldOrTruncated .sizePrefix (some [y0, y1, y2]) =
      .sizePrefix .dec (BitVec.ofNat 6 (prefixCnt y0)) (BitVec.ofNat 18 (prefixPlen y0 y1 y2)) :=
  rfl

theorem fieldOrTruncated_headerEntry_some {b : Bytes} {pos : Nat} {e : Entry} (hp : parseEntry b pos = some e) :
    fieldOrTruncated .headerEntry (some (b.drop pos)) = .headerEntry .dec e.name e.value := by
  simp only [fieldOrTruncated, decode, decodeField, parseEntry_drop, hp]

theorem fieldOrTruncated_headerEntry_none {b : Bytes} {pos : Nat} (hp : parseEntry b pos = none) :
    fieldOrTruncated .headerEntry (some (b.drop pos)) = .status .dec (.error .truncatedInput) := by
  simp only [fieldOrTruncated, decode, decodeField, parseEntry_drop, hp]

theorem fieldOrTruncated_name {bytes : Bytes} (h : bytes.length ≤ Config.fieldMax) :
    fieldOrTruncated .name (some bytes) = .name .dec bytes :=
  fieldOrTruncated_of_decode (f := .name) (if_pos h)

theorem fieldOrTruncated_value {bytes : Bytes} (h : bytes.length ≤ Config.fieldMax) :
    fieldOrTruncated .value (some bytes) = .value .dec bytes :=
  fieldOrTruncated_of_decode (f := .value) (if_pos h)

theorem fieldOrTruncated_payload {bytes : Bytes} (h : bytes.length ≤ Config.plenFieldMax) :
    fieldOrTruncated .payload (some bytes) = .payload .dec bytes :=
  fieldOrTruncated_of_decode (f := .payload) (if_pos h)

/-- What is read in three bytes at a boundary, in the terms of the scan (R85, R87). -/
theorem readSizePrefix_of_bytes {v : DecVars} {y0 y1 y2 : Byte} (hfew : ¬ v.unread < 3) :
    readSizePrefix (BitVec.ofNat 6 (prefixCnt y0)) (BitVec.ofNat 18 (prefixPlen y0 y1 y2)) v =
      if terminator (prefixCnt y0) (prefixPlen y0 y1 y2) v.k v.unread then .go { v with due := .payload }
      else if v.k = Config.hdrMax then raise (cutOffError (prefixCnt y0) (prefixPlen y0 y1 y2) v.unread)
      else .go { v with due := .nameLen } := by
  rw [readSizePrefix, if_neg hfew, ofNat_prefixCnt, ofNat_prefixPlen]

theorem decode_valueLen_of_rd16 (u : Agent) {bs : Bytes} {m : Nat} (h : rd16 bs 0 = some m) :
    decode (.field u .valueLen) bs = .instr (.valueLen u (BitVec.ofNat 16 m)) (bs.drop 2) := by
  simp only [decode, decodeField, h]

theorem rd16_of_memRead {b x : Bytes} {i : Nat} (h : memRead b i 2 = some x) : ∃ n, rd16 b i = some n ∧ rd16 x 0 = some n := by
  obtain ⟨y, z, rfl⟩ := two_bytes (memRead_length h)
  exact ⟨_, by simp only [rd16, h], rfl⟩

/-! ### The transfer of each field -/

section
variable {s : State} {v : DecVars} (hs : s.dec = some v) (hreach : Reached v.buffer v.pos v.hdrs)
  (hk : v.k = v.hdrs.length)
include hs hreach hk

/-- The result of the operation where the visit of the boundary fails. -/
theorem DecVars.advances_of_visit_fail {e : CodecError} (hv : visit v.buffer v.pos v.k = .fail e) :
    v.Advances s (exec (.status .dec (.error e)) s) :=
  DecVars.advances_status_error hs (hreach.decodeBytes_of_fail (hk ▸ hv))

/-- The three bytes at a boundary (R84 to R87). -/
theorem DecVars.advances_boundary (hdue : v.due = .boundary) :
    v.Advances s (exec (fieldOrTruncated .sizePrefix (memRead v.buffer v.pos 3)) s) := by
  cases hr : memRead v.buffer v.pos 3 with
  | none =>
    exact DecVars.advances_of_visit_fail hs hreach hk (visit_few (by have := memRead_eq_none.1 hr; omega))
  | some x =>
    obtain ⟨y0, y1, y2, rfl⟩ := three_bytes (memRead_length hr)
    have hfew : ¬ v.unread < 3 := by have := (memRead_iff_append.1 hr).1; simp only [DecVars.unread]; omega
    have hmax : v.k ≤ Config.hdrMax := hk ▸ hreach.length_le
    rw [fieldOrTruncated_sizePrefix]
    by_cases ht : terminator (prefixCnt y0) (prefixPlen y0 y1 y2) v.k v.unread
    · exact DecVars.advances_of_go hs ((readSizePrefix_of_bytes hfew).trans (if_pos ht))
        ⟨hreach, hk, visit_of_terminator hr ht⟩ rfl (by simp only [DecVars.left, hdue]; omega)
    by_cases hcut : v.k = Config.hdrMax
    · have hvisit := visit_of_cutOff hr ht hcut
      refine DecVars.advances_of_done hs ((readSizePrefix_of_bytes hfew).trans ?_)
      rw [if_neg ht, if_pos hcut, hreach.decodeBytes_of_fail (hk ▸ hvisit)]
      rfl
    · exact DecVars.advances_of_go hs ((readSizePrefix_of_bytes hfew).trans ((if_neg ht).trans (if_neg hcut)))
        ⟨hreach, hk, lt_of_le_of_ne hmax hcut, y0, y1, y2, hr, ht⟩ rfl (by simp only [DecVars.left, hdue]; omega)

variable (hentry : v.AtEntry)
include hentry

/-- The name length (R88, R89). -/
theorem DecVars.advances_nameLen (hdue : v.due = .nameLen) :
    v.Advances s (exec (fieldOrTruncated .nameLen (memRead v.buffer v.pos 2)) s) := by
  have hthree := hentry.three_unread
  have hread : memRead v.buffer v.pos 2 = some _ := memRead_eq_some.2 ⟨by omega, rfl⟩
  obtain ⟨N, hN, hN'⟩ := rd16_of_memRead hread
  have hlt : N < 65536 := (rd16_eq_some.1 hN).1
  have htoNat : (BitVec.ofNat 16 N).toNat = N := Nat.mod_eq_of_lt hlt
  rw [hread, fieldOrTruncated_of_decode (decode_nameLen_of_rd16 .dec hN')]
  by_cases hfit : 2 + N + 2 ≤ v.unread
  · exact DecVars.advances_of_go hs (if_neg (by rw [htoNat]; omega))
      ⟨hreach, hk, hentry, by rw [htoNat]; exact hN, by rw [htoNat]; exact hfit⟩ rfl
      (by simp only [DecVars.left, hdue]; omega)
  · have hvisit := hentry.visit_fail (parseEntry_name_overrun hN (by simp only [DecVars.unread] at hfit; omega))
    exact DecVars.advances_of_done hs
      ((if_pos (by rw [htoNat]; omega)).trans (by rw [hreach.decodeBytes_of_fail (hk ▸ hvisit)]; rfl))

/-- A whole entry (R88 to R92). -/
theorem DecVars.advances_headerEntry (hdue : v.due = .nameLen) :
    v.Advances s (exec (fieldOrTruncated .headerEntry (some (v.buffer.drop v.pos))) s) := by
  cases hp : parseEntry v.buffer v.pos with
  | none =>
    rw [fieldOrTruncated_headerEntry_none hp]
    exact DecVars.advances_of_visit_fail hs hreach hk (hentry.visit_fail hp)
  | some e =>
    rw [fieldOrTruncated_headerEntry_some hp]
    have hfits := (parseEntry_eq_some.1 hp).2.1
    have hlt := hentry.1
    refine DecVars.advances_of_go hs (readHeaderEntry_of_fits (e := e) ?_)
      (DecVars.accept_sound hreach hk hentry hp) rfl ?_
    · simp only [Entry.size, DecVars.unread] at hfits ⊢
      omega
    · simp only [DecVars.left, DecVars.accept, hdue]
      omega

variable (hN : rd16 v.buffer v.pos = some v.n.toNat) (hfit : 2 + v.n.toNat + 2 ≤ v.unread)
include hN hfit

/-- The name (R89). -/
theorem DecVars.advances_name (hdue : v.due = .name) :
    v.Advances s (exec (fieldOrTruncated .name (memRead v.buffer (v.pos + 2) v.n.toNat)) s) := by
  have hread : memRead v.buffer (v.pos + 2) v.n.toNat = some _ :=
    memRead_eq_some.2 ⟨by simp only [DecVars.unread] at hfit; omega, rfl⟩
  have hlen := memRead_length hread
  have hlt := v.n.isLt
  have hk' := hentry.1
  rw [hread, fieldOrTruncated_name (by simp only [Config.fieldMax]; omega)]
  exact DecVars.advances_of_go hs rfl ⟨hreach, hk, hentry, hN, hfit, hread⟩ rfl
    (by simp only [DecVars.left, hdue]; omega)

variable (hname : memRead v.buffer (v.pos + 2) v.n.toNat = some v.name)
include hname

/-- The value length (R90, R91). -/
theorem DecVars.advances_valueLen (hdue : v.due = .valueLen) :
    v.Advances s (exec (fieldOrTruncated .valueLen (memRead v.buffer (v.pos + 2 + v.n.toNat) 2)) s) := by
  have hread : memRead v.buffer (v.pos + 2 + v.n.toNat) 2 = some _ :=
    memRead_eq_some.2 ⟨by simp only [DecVars.unread] at hfit; omega, rfl⟩
  obtain ⟨M, hM, hM'⟩ := rd16_of_memRead hread
  have hlt : M < 65536 := (rd16_eq_some.1 hM).1
  have htoNat : (BitVec.ofNat 16 M).toNat = M := Nat.mod_eq_of_lt hlt
  have hk' := hentry.1
  rw [hread, fieldOrTruncated_of_decode (decode_valueLen_of_rd16 .dec hM')]
  by_cases hfit' : 4 + v.n.toNat + M ≤ v.unread
  · exact DecVars.advances_of_go hs (if_neg (by rw [htoNat]; omega))
      ⟨hreach, hk, hentry, hN, hfit, hname, by rw [htoNat]; exact hM, by rw [htoNat]; exact hfit'⟩ rfl
      (by simp only [DecVars.left, hdue]; omega)
  · have hvisit := hentry.visit_fail (parseEntry_value_overrun hN hM (by simp only [DecVars.unread] at hfit'; omega))
    exact DecVars.advances_of_done hs
      ((if_pos (by rw [htoNat]; omega)).trans (by rw [hreach.decodeBytes_of_fail (hk ▸ hvisit)]; rfl))

omit hfit in
/-- The value, with which the entry is accepted (R91, R92). -/
theorem DecVars.advances_value (hdue : v.due = .value) (hM : rd16 v.buffer (v.pos + 2 + v.n.toNat) = some v.m.toNat)
    (hfit' : 4 + v.n.toNat + v.m.toNat ≤ v.unread) :
    v.Advances s (exec (fieldOrTruncated .value (memRead v.buffer (v.pos + 4 + v.n.toNat) v.m.toNat)) s) := by
  have hthree := hentry.three_unread
  have hread : memRead v.buffer (v.pos + 4 + v.n.toNat) v.m.toNat = some _ :=
    memRead_eq_some.2 ⟨by simp only [DecVars.unread] at hfit'; omega, rfl⟩
  have hlen := memRead_length hread
  have hnlen := memRead_length hname
  have hlt := v.m.isLt
  have hk' := hentry.1
  have hp := parseEntry_of_fields (by omega) hN hM hfit'
  rw [← (memRead_eq_some.1 hname).2] at hp
  have hsound := DecVars.accept_sound hreach hk hentry hp
  rw [hnlen, hlen] at hsound
  rw [hread, fieldOrTruncated_value (by simp only [Config.fieldMax]; omega)]
  exact DecVars.advances_of_go hs rfl hsound rfl (by simp only [DecVars.left, DecVars.accept, hdue]; omega)

end

section
variable {s : State} {v : DecVars} (hs : s.dec = some v) (hreach : Reached v.buffer v.pos v.hdrs)
  (hk : v.k = v.hdrs.length)
include hs hreach hk

/-- The payload (R86). -/
theorem DecVars.advances_payload (hdue : v.due = .payload)
    (hvisit : visit v.buffer v.pos v.k = .accept (v.buffer.drop (v.pos + 3))) :
    v.Advances s (exec (fieldOrTruncated .payload (memRead v.buffer (v.pos + 3) (v.unread - 3))) s) := by
  obtain ⟨-, hp, hd⟩ := visit_eq_accept.1 hvisit
  have hlen := pos_add_le_of_drop hd (by simp)
  simp only [composePrefix_length] at hlen
  have hread : memRead v.buffer (v.pos + 3) (v.unread - 3) = some (v.buffer.drop (v.pos + 3)) :=
    memRead_eq_some.2 ⟨by simp only [DecVars.unread]; omega,
      (List.take_of_length_le (by simp only [DecVars.unread, List.length_drop]; omega)).symm⟩
  rw [hread, fieldOrTruncated_payload hp]
  exact DecVars.advances_of_go hs rfl ⟨hreach, hk, hvisit⟩ rfl (by simp only [DecVars.left, hdue]; omega)

/-- The result (R86, R93). -/
theorem DecVars.advances_status (hvisit : visit v.buffer v.pos v.k = .accept v.payload) :
    v.Advances s (exec (.status .dec .ok) s) :=
  DecVars.advances_of_done hs (congrArg Move.done (hreach.decodeBytes_of_accept (hk ▸ hvisit)).symm)

end

/-- The whole buffer as one transfer at its first boundary (R93). -/
theorem DecVars.advances_wholeBuffer {s : State} {v : DecVars} (hs : s.dec = some v) (hdue : v.due = .boundary) :
    v.Advances s (exec (wholeBuffer v.buffer) s) := by
  cases hdec : decodeBytes v.buffer with
  | err e =>
    rw [wholeBuffer, hdec]
    exact DecVars.advances_status_error hs hdec
  | ok m =>
    obtain ⟨pos, hreach, hvisit⟩ := decodeBytes_eq_ok.1 hdec
    obtain ⟨-, -, hd⟩ := visit_eq_accept.1 hvisit
    have hlen := pos_add_le_of_drop hd (by simp)
    simp only [composePrefix_length] at hlen
    have hpos : v.buffer.length - 3 - m.payload.length = pos := by omega
    rw [wholeBuffer, hdec]
    exact DecVars.advances_of_go hs rfl ⟨hpos.symm ▸ hreach, rfl, hpos.symm ▸ hvisit⟩ rfl
      (by simp only [DecVars.left, hdue]; omega)

/-- Every transfer of a sound DECODE, of whatever grain, brings it closer to the result of the whole operation. -/
theorem DecVars.fetch_advances {s : State} {v : DecVars} (hs : s.dec = some v) (hv : v.Sound) (g : Grain) :
    v.Advances s (exec (v.fetch g) s) := by
  obtain ⟨hreach, hk, hv⟩ := hv
  unfold DecVars.fetch
  cases hdue : v.due <;> simp only [hdue] at hv ⊢
  case boundary =>
    split
    · exact DecVars.advances_wholeBuffer hs hdue
    · exact DecVars.advances_boundary hs hreach hk hdue
  case nameLen =>
    cases g with
    | field => exact DecVars.advances_nameLen hs hreach hk hv hdue
    | entry => exact DecVars.advances_headerEntry hs hreach hk hv hdue
    | whole => exact DecVars.advances_headerEntry hs hreach hk hv hdue
  case name =>
    obtain ⟨hentry, hN, hfit⟩ := hv
    exact DecVars.advances_name hs hreach hk hentry hN hfit hdue
  case valueLen =>
    obtain ⟨hentry, hN, hfit, hname⟩ := hv
    exact DecVars.advances_valueLen hs hreach hk hentry hN hfit hname hdue
  case value =>
    obtain ⟨hentry, hN, -, hname, hM, hfit⟩ := hv
    exact DecVars.advances_value hs hreach hk hentry hN hname hdue hM hfit
  case payload => exact DecVars.advances_payload hs hreach hk hdue hv
  case status => exact DecVars.advances_status hs hreach hk hv

end Sys2Proof.Machine
end

section
/-! One step of the machine (`30_encoding.md` section 7, `10_state.md` sections 1, 3 and 5, `70_reset_and_hazards.md`):
which event is taken, how an operation begins, and what a transfer of a sound unit leaves. -/

namespace Sys2Proof.Machine

/-! ### The oldest event is taken -/

section
variable {s : State} {rest : List HostEvent}

theorem step_of_pending {e : HostEvent} (h : s.pending = e :: rest) :
    step s = State.runEvent { s with pending := rest } e := by
  simp only [step, h]

theorem step_request {s' : State} {code : Bytes} {ops : Operands} (h : s.pending = .request code ops :: rest)
    (hops : State.presentLine { s with pending := rest } ops = some s') : step s = s'.runRequest code := by
  rw [step_of_pending h]
  simp only [State.runEvent, hops]

theorem step_request_refused {code : Bytes} {ops : Operands} (h : s.pending = .request code ops :: rest)
    (hops : State.presentLine { s with pending := rest } ops = none) : step s = .refused .noOperandValue := by
  rw [step_of_pending h]
  simp only [State.runEvent, hops]

theorem step_start {s' : State} {u : Agent} {ops : Operands} (h : s.pending = .start u ops :: rest)
    (hops : State.presentLine { s with pending := rest } ops = some s') : step s = .next (s'.begin u) := by
  rw [step_of_pending h]
  simp only [State.runEvent, hops]

theorem step_reset (h : s.pending = .reset :: rest) : step s = .next (State.assertReset { s with pending := rest }) :=
  step_of_pending h

theorem step_tick_enc {v : EncVars} {g : Grain} (h : s.pending = .tick .enc g :: rest) (hs : s.enc = some v) :
    step s = exec (v.fetch g) { s with pending := rest } := by
  rw [step_of_pending h]
  simp only [State.runEvent, State.runTick, State.fetch, hs, Option.map_some]

theorem step_tick_dec {v : DecVars} {g : Grain} (h : s.pending = .tick .dec g :: rest) (hs : s.dec = some v) :
    step s = exec (v.fetch g) { s with pending := rest } := by
  rw [step_of_pending h]
  simp only [State.runEvent, State.runTick, State.fetch, hs, Option.map_some]

theorem step_tick_enc_idle {g : Grain} (h : s.pending = .tick .enc g :: rest) (hs : s.enc = none) :
    step s = .next { s with pending := rest } := by
  rw [step_of_pending h]
  simp only [State.runEvent, State.runTick, State.fetch, hs, Option.map_none]

theorem step_tick_dec_idle {g : Grain} (h : s.pending = .tick .dec g :: rest) (hs : s.dec = none) :
    step s = .next { s with pending := rest } := by
  rw [step_of_pending h]
  simp only [State.runEvent, State.runTick, State.fetch, hs, Option.map_none]

theorem runRequest_of_decode {code : Bytes} {i : Instr} (h : decode .op code = .instr i []) :
    s.runRequest code = exec i s := by
  simp only [State.runRequest, h]

end

/-- Settles O11: the request's line is presented and its code decoded before anything is executed. -/
theorem stepRunsTheDecodedRequest : Obligations.StepRunsTheDecodedRequest := by
  intro s s' code ops rest i h hcode hops
  rw [step_request h hops, runRequest_of_decode hcode]

/-- Settles O13: there is no event to take, or the event asks for nothing. -/
theorem idleStepsChangeNothing : Obligations.IdleStepsChangeNothing :=
  ⟨fun s h => by simp only [step, h], fun _ _ _ h hs => step_tick_enc_idle h hs, fun _ _ _ h hs => step_tick_dec_idle h hs⟩

/-- Settles O14: reset only makes both units idle. -/
theorem resetAbandonsOperations : Obligations.ResetAbandonsOperations := fun _ _ h => step_reset h

/-- Settles O10: both units are idle by definition, and no result has been delivered. -/
theorem resetLeavesBothUnitsIdle : Obligations.ResetLeavesBothUnitsIdle := ⟨rfl, rfl, rfl, rfl⟩

/-- Settles O56: no unit has working variables. -/
theorem resetIsSound : Obligations.ResetIsSound :=
  ⟨fun _ h => (nomatch h), fun _ h => (nomatch h)⟩

/-! ### An operation begins -/

/-- Settles O15: `begin` gives the start values, with the operand that the line has put at the port. -/
theorem operationBeginsWithStartValues : Obligations.OperationBeginsWithStartValues := by
  refine ⟨fun s s' rest ops h hops => ?_, fun s s' rest ops h hops => ?_⟩
  · exact ⟨EncVars.start s'.encPort, step_start h hops, rfl, rfl, rfl⟩
  · exact ⟨DecVars.start s'.decPort, step_start h hops, rfl, rfl, rfl, rfl⟩

/-- Settles O16: `finish` is the delivery of the previous result, and on the idle unit that is left it does nothing. -/
theorem aBusyUnitGivesItsResultFirst : Obligations.ABusyUnitGivesItsResultFirst := by
  refine ⟨fun s v hv => ?_, fun s v hv => ?_⟩
  · have hfinish : s.finish .enc = s.deliverEnc (encodeMessage v.operand) := State.finish_enc_busy hv
    have hidle : (s.deliverEnc (encodeMessage v.operand)).finish .enc = s.deliverEnc (encodeMessage v.operand) :=
      State.finish_enc_idle rfl
    refine ⟨?_, ?_⟩
    · rw [exec_encode, hfinish]
      exact congrArg (fun t => Host.Outcome.next (State.deliverEnc t _)) hidle.symm
    · rw [State.begin, hfinish]
      exact congrArg (fun t => { t with enc := some (EncVars.start s.encPort) }) hidle.symm
  · have hfinish : s.finish .dec = s.deliverDec (decodeBytes v.buffer) := State.finish_dec_busy hv
    have hidle : (s.deliverDec (decodeBytes v.buffer)).finish .dec = s.deliverDec (decodeBytes v.buffer) :=
      State.finish_dec_idle rfl
    refine ⟨?_, ?_⟩
    · rw [exec_decode, hfinish]
      exact congrArg (fun t => Host.Outcome.next (State.deliverDec t _)) hidle.symm
    · rw [State.begin, hfinish]
      exact congrArg (fun t => { t with dec := some (DecVars.start s.decPort) }) hidle.symm

/-- Settles O26: DECODE is the delivery of `decodeBytes` after the previous result. -/
theorem decodeDeliversOneResult : Obligations.DecodeDeliversOneResult := by
  intro s
  rw [exec_decode, State.deliverDec]

/-! ### The fields that a DECODE reads -/

/-- The field due is the one at its address, for each of the six (R83 to R91). -/
theorem DecVars.fetch_field {v : DecVars} {f : Format} {addr n : Nat}
    (h : (v.due = .boundary ∧ f = .sizePrefix ∧ addr = v.pos ∧ n = 3) ∨
      (v.due = .nameLen ∧ f = .nameLen ∧ addr = v.pos ∧ n = 2) ∨
      (v.due = .name ∧ f = .name ∧ addr = v.pos + 2 ∧ n = v.n.toNat) ∨
      (v.due = .valueLen ∧ f = .valueLen ∧ addr = v.pos + 2 + v.n.toNat ∧ n = 2) ∨
      (v.due = .value ∧ f = .value ∧ addr = v.pos + 4 + v.n.toNat ∧ n = v.m.toNat) ∨
      (v.due = .payload ∧ f = .payload ∧ addr = v.pos + 3 ∧ n = v.buffer.length - v.pos - 3)) :
    v.fetch .field = fieldOrTruncated f (memRead v.buffer addr n) := by
  obtain ⟨hdue, rfl, rfl, rfl⟩ | ⟨hdue, rfl, rfl, rfl⟩ | ⟨hdue, rfl, rfl, rfl⟩ | ⟨hdue, rfl, rfl, rfl⟩ |
    ⟨hdue, rfl, rfl, rfl⟩ | ⟨hdue, rfl, rfl, rfl⟩ := h <;> simp only [DecVars.fetch, hdue, reduceCtorEq, false_and, if_false]

/-- Settles O12: where the field's bytes are in the buffer they are decoded, else the status is TruncatedInput. -/
theorem stepRunsTheFieldAtTheCursor : Obligations.StepRunsTheFieldAtTheCursor := by
  intro s rest v f addr n h hs hdue
  rw [step_tick_dec h hs, DecVars.fetch_field hdue]
  refine ⟨fun i left hin hdec => ?_, fun hout => ?_⟩
  · rw [memRead_eq_some.2 ⟨hin, rfl⟩, fieldOrTruncated_of_decode hdec]
  · rw [memRead_eq_none.2 hout]
    exact next_moveDec_done (s := { s with pending := rest }) hs rfl

/-- A whole entry that is due is what the parser finds at the cursor. -/
theorem DecVars.fetch_entry_of_parseEntry_some {v : DecVars} {e : Entry} (hdue : v.due = .nameLen)
    (hp : parseEntry v.buffer v.pos = some e) : v.fetch .entry = .headerEntry .dec e.name e.value := by
  simp only [DecVars.fetch, hdue, fieldOrTruncated_headerEntry_some hp]

theorem DecVars.fetch_entry_of_parseEntry_none {v : DecVars} (hdue : v.due = .nameLen)
    (hp : parseEntry v.buffer v.pos = none) : v.fetch .entry = .status .dec (.error .truncatedInput) := by
  simp only [DecVars.fetch, hdue, fieldOrTruncated_headerEntry_none hp]

/-- Settles O48: the parser overruns at the name, at the value, or finds the entry, which is then accepted. -/
theorem anEntryIsReadByItsRules : Obligations.AnEntryIsReadByItsRules := by
  intro s rest v y0 y1 N h hs hdue hthree h0 h1 hN
  have hname : rd16 v.buffer v.pos = some N := hN ▸ rd16_of_bytes h0 h1
  have htruncated : parseEntry v.buffer v.pos = none → step s =
      .next { s with pending := rest, dec := none, decResults := s.decResults ++ [.err .truncatedInput] } := by
    intro hp
    rw [step_tick_dec h hs, DecVars.fetch_entry_of_parseEntry_none hdue hp]
    exact next_moveDec_done (s := { s with pending := rest }) hs rfl
  refine ⟨fun hover => htruncated (parseEntry_name_overrun hname hover), fun z0 z1 M hfit g0 g1 hM => ?_⟩
  have hvalue : rd16 v.buffer (v.pos + 2 + N) = some M :=
    hM ▸ rd16_of_bytes g0 (by rw [← g1]; congr 1; omega)
  refine ⟨fun hover => htruncated (parseEntry_value_overrun hname hvalue hover), fun hfit' => ?_⟩
  have hp := parseEntry_of_fields (by omega) hname hvalue hfit'
  have hnameLen : ((v.buffer.drop (v.pos + 2)).take N).length = N := by
    rw [List.length_take, List.length_drop]; omega
  have hvalueLen : ((v.buffer.drop (v.pos + 4 + N)).take M).length = M := by
    rw [List.length_take, List.length_drop]; omega
  refine ⟨v.accept ⟨(v.buffer.drop (v.pos + 2)).take N, (v.buffer.drop (v.pos + 4 + N)).take M⟩ N M, ?_, rfl, rfl, rfl,
    ?_, rfl⟩
  · rw [step_tick_dec h hs, DecVars.fetch_entry_of_parseEntry_some hdue hp]
    refine next_moveDec_go (s := { s with pending := rest }) hs ?_
    rw [readHeaderEntry_of_fits (by simp only [hnameLen, hvalueLen]; exact hfit'), hnameLen, hvalueLen]
  · simp only [DecVars.accept]
    omega

/-! ### Soundness is kept -/

section
variable {s t : State}

/-- Only the working variables count. -/
theorem State.Sound.congr (h : s.Sound) (henc : t.enc = s.enc) (hdec : t.dec = s.dec) : t.Sound :=
  ⟨fun v hv => h.1 v (henc ▸ hv), fun v hv => h.2 v (hdec ▸ hv)⟩

theorem State.Sound.of_enc_idle (h : s.Sound) (henc : t.enc = none) (hdec : t.dec = s.dec) : t.Sound :=
  ⟨fun _ hv => (nomatch henc.symm.trans hv), fun v hv => h.2 v (hdec ▸ hv)⟩

theorem State.Sound.of_dec_idle (h : s.Sound) (hdec : t.dec = none) (henc : t.enc = s.enc) : t.Sound :=
  ⟨fun v hv => h.1 v (henc ▸ hv), fun _ hv => (nomatch hdec.symm.trans hv)⟩

theorem State.Sound.finish (h : s.Sound) (u : Agent) : (s.finish u).Sound := by
  cases u
  · exact h.of_enc_idle (by simp) (by simp)
  · exact h.of_dec_idle (by simp) (by simp)

theorem State.Sound.present {ops : Operands} (h : s.Sound) (hops : s.present ops = some t) : t.Sound := by
  obtain ⟨m, b, -, -, rfl⟩ := State.present_cases hops
  exact h.congr rfl rfl

theorem State.Sound.presentLine {ops : Operands} (h : s.Sound) (hops : s.presentLine ops = some t) : t.Sound := by
  obtain hops | ⟨-, hops⟩ := State.presentLine_cases hops
  · exact h.present hops
  · exact ((h.finish .enc).finish .dec).present hops

theorem State.Sound.begin (h : s.Sound) (u : Agent) : (s.begin u).Sound := by
  cases u with
  | enc =>
    refine ⟨fun v hv => ?_, fun v hv => h.2 v (by simpa using hv)⟩
    cases hv
    exact EncVars.start_sound s.encPort
  | dec =>
    refine ⟨fun v hv => h.1 v (by simpa using hv), fun v hv => ?_⟩
    cases hv
    exact DecVars.start_sound s.decPort

theorem State.Sound.runRequest {code : Bytes} (h : s.Sound) (ht : s.runRequest code = .next t) : t.Sound := by
  unfold State.runRequest at ht
  split at ht
  · next i hdec =>
    cases code with
    | nil => cases hdec
    | cons x rest =>
      simp only [decode, decodeOp] at hdec
      split at hdec
      · cases hdec
        cases ht
        exact h.of_dec_idle (by simp) (by simp)
      · cases hdec
        cases ht
        exact h.of_enc_idle (by simp) (by simp)
  · cases ht
  · cases ht

/-- A transfer of a sound ENCODE leaves a sound unit. -/
theorem EncVars.Advances.sound {v : EncVars} (hadv : v.Advances s (.next t)) (h : s.Sound) : t.Sound := by
  obtain ht | ⟨v', ht, hsound, -⟩ := hadv <;> cases ht
  · exact h.of_enc_idle rfl rfl
  · exact ⟨fun w hw => by cases hw; exact hsound, h.2⟩

/-- A transfer of a sound DECODE leaves a sound unit. -/
theorem DecVars.Advances.sound {v : DecVars} (hadv : v.Advances s (.next t)) (h : s.Sound) : t.Sound := by
  obtain ht | ⟨v', ht, hsound, -⟩ := hadv <;> cases ht
  · exact h.of_dec_idle rfl rfl
  · exact ⟨h.1, fun w hw => by cases hw; exact hsound⟩

theorem State.Sound.runTick {u : Agent} {g : Grain} (h : s.Sound) (ht : s.runTick u g = .next t) : t.Sound := by
  cases u with
  | enc =>
    cases hs : s.enc with
    | none =>
      simp only [State.runTick, State.fetch, hs, Option.map_none] at ht
      cases ht
      exact h
    | some v =>
      simp only [State.runTick, State.fetch, hs, Option.map_some] at ht
      have hadv := EncVars.fetch_advances hs (h.1 v hs) g
      rw [ht] at hadv
      exact hadv.sound h
  | dec =>
    cases hs : s.dec with
    | none =>
      simp only [State.runTick, State.fetch, hs, Option.map_none] at ht
      cases ht
      exact h
    | some v =>
      simp only [State.runTick, State.fetch, hs, Option.map_some] at ht
      have hadv := DecVars.fetch_advances hs (h.2 v hs) g
      rw [ht] at hadv
      exact hadv.sound h

end

/-- Settles O55: event by event, an operation begins and goes on soundly, and every other event leaves a unit idle or as
it is. -/
theorem stepKeepsTheWorkingVariablesSound : Obligations.StepKeepsTheWorkingVariablesSound := by
  intro s t h ht
  unfold step at ht
  split at ht
  · cases ht
    exact h
  · next e rest _ =>
    have h0 : State.Sound { s with pending := rest } := h.congr rfl rfl
    cases e with
    | request code ops =>
      simp only [State.runEvent] at ht
      split at ht
      · next s' hops => exact (h0.presentLine hops).runRequest ht
      · cases ht
    | start u ops =>
      simp only [State.runEvent] at ht
      split at ht
      · next s' hops =>
        cases ht
        exact (h0.presentLine hops).begin u
      · cases ht
    | tick u g => exact h0.runTick ht
    | reset =>
      cases ht
      exact (h0.of_enc_idle rfl rfl : State.Sound { s with pending := rest, enc := none }).of_dec_idle rfl rfl

/-- Settles O57: the transfer that leaves the unit idle is the one that delivers. -/
theorem aTransferDeliversTheWholeResult : Obligations.ATransferDeliversTheWholeResult := by
  refine fun s t g rest h => ⟨fun v hs hp ht hidle => ?_, fun v hs hp ht hidle => ?_⟩
  · have hadv := EncVars.fetch_advances (s := { s with pending := rest }) hs (h.1 v hs) g
    rw [← step_tick_enc hp hs, ht] at hadv
    obtain ht | ⟨v', ht, -⟩ := hadv <;> cases ht
    · rfl
    · cases hidle
  · have hadv := DecVars.fetch_advances (s := { s with pending := rest }) hs (h.2 v hs) g
    rw [← step_tick_dec hp hs, ht] at hadv
    obtain ht | ⟨v', ht, -⟩ := hadv <;> cases ht
    · rfl
    · cases hidle

end Sys2Proof.Machine
end

section
/-! Whole runs (`00_scope.md` section 3, `10_state.md` section 1): a unit that needs at most `n` transfers has, after
`n` of them in any order with the other unit's, the result that ending its operation at once gives. -/

namespace Sys2Proof.Machine

/-! ### The host's events aside -/

/-- The state with these events pending. -/
def State.withEvents (s : State) (es : List HostEvent) : State := { s with pending := es }

@[simp] theorem State.withEvents_withEvents (s : State) (es fs : List HostEvent) :
    (s.withEvents es).withEvents fs = s.withEvents fs := rfl

theorem State.withEvents_eq_self {s : State} {es : List HostEvent} (h : s.pending = es) : s.withEvents es = s := by
  rw [State.withEvents, ← h]

/-- Ending an operation does not look at the events. -/
@[simp] theorem State.finish_withEvents (s : State) (es : List HostEvent) (u : Agent) :
    (s.withEvents es).finish u = (s.finish u).withEvents es := s.finish_with_pending u es

/-- Beginning an operation does not look at the events. -/
@[simp] theorem State.begin_withEvents (s : State) (es : List HostEvent) (u : Agent) :
    (s.withEvents es).begin u = (s.begin u).withEvents es := by
  cases u <;> simp only [State.begin, State.finish_withEvents] <;> rfl

@[simp] theorem State.deliverEnc_withEvents (s : State) (es : List HostEvent) (r : Result Bytes) :
    (s.withEvents es).deliverEnc r = (s.deliverEnc r).withEvents es := rfl

@[simp] theorem State.deliverDec_withEvents (s : State) (es : List HostEvent) (r : Result Message) :
    (s.withEvents es).deliverDec r = (s.deliverDec r).withEvents es := rfl

/-! ### Ending an operation -/

theorem State.finish_comm (s : State) : (s.finish .enc).finish .dec = (s.finish .dec).finish .enc := by
  cases he : s.enc <;> cases hd : s.dec <;> simp [State.finish, he, hd, State.deliverEnc, State.deliverDec]

/-! ### The transfers a unit still needs -/

/-- Unit `u` is idle, or sound and at most `n` transfers from its end. -/
def State.Within (s : State) (u : Agent) (n : Nat) : Prop :=
  match u with
  | .enc => ∀ v, s.enc = some v → v.Sound ∧ v.left ≤ n
  | .dec => ∀ v, s.dec = some v → v.Sound ∧ v.left ≤ n

/-- The transfers of unit `u` that end any of its operations. -/
def transfersOf : Agent → Nat
  | .enc => 255
  | .dec => 318

section
variable {s t : State} {u : Agent} {n : Nat}

theorem State.Within.mono {m : Nat} (h : s.Within u n) (hnm : n ≤ m) : s.Within u m := by
  cases u with
  | enc => exact fun v hv => ⟨(h v hv).1, (h v hv).2.trans hnm⟩
  | dec => exact fun v hv => ⟨(h v hv).1, (h v hv).2.trans hnm⟩

theorem State.Within.withEvents (h : s.Within u n) (es : List HostEvent) : (s.withEvents es).Within u n := by
  cases u <;> exact h

theorem State.Sound.within (h : s.Sound) (u : Agent) : s.Within u (transfersOf u) := by
  cases u with
  | enc => exact fun v hv => ⟨h.1 v hv, v.left_le⟩
  | dec => exact fun v hv => ⟨h.2 v hv, v.left_le⟩

/-- With no transfer left the unit is idle. -/
theorem State.Within.finish_eq (h : s.Within u 0) : s.finish u = s := by
  cases u with
  | enc =>
    cases hv : s.enc with
    | none => exact State.finish_enc_idle hv
    | some v => exact absurd (h v hv).1.left_pos (not_lt.2 (h v hv).2)
  | dec =>
    cases hv : s.dec with
    | none => exact State.finish_dec_idle hv
    | some v => exact absurd (h v hv).1.left_pos (not_lt.2 (h v hv).2)

/-- A unit that has begun in this state is sound. -/
theorem State.within_begin (s : State) (u : Agent) : (s.begin u).Within u (transfersOf u) := by
  cases u with
  | enc =>
    intro v hv
    cases hv
    exact ⟨EncVars.start_sound _, EncVars.left_le _⟩
  | dec =>
    intro v hv
    cases hv
    exact ⟨DecVars.start_sound _, DecVars.left_le _⟩

end

/-- One transfer of unit `u` with the event taken: the unit is closer to the same end, and the other unit is untouched. -/
structure State.Ticks (u : Agent) (rest : List HostEvent) (n : Nat) (s t : State) : Prop where
  pending : t.pending = rest
  within : t.Within u n
  finish : t.finish u = (s.finish u).withEvents rest
  other : ∀ w m, w ≠ u → s.Within w m → t.Within w m

section
variable {s t : State} {rest : List HostEvent} {g : Grain} {u : Agent} {n : Nat}

theorem State.Ticks.finish_both (h : s.Ticks u rest n t) :
    (t.finish .enc).finish .dec = ((s.finish .enc).finish .dec).withEvents rest := by
  cases u with
  | enc => rw [h.finish, State.finish_withEvents]
  | dec => rw [State.finish_comm, h.finish, State.finish_withEvents, s.finish_comm]

theorem step_tick_enc_of_within (hp : s.pending = .tick .enc g :: rest) (hw : s.Within .enc (n + 1)) :
    ∃ t, step s = .next t ∧ s.Ticks .enc rest n t := by
  cases hs : s.enc with
  | none =>
    refine ⟨_, step_tick_enc_idle hp hs, rfl, fun v hv => ?_, State.finish_with_pending .., fun w m _ h => h.withEvents rest⟩
    exact (nomatch hs.symm.trans hv)
  | some v =>
    obtain ⟨hsound, hleft⟩ := hw v hs
    rw [step_tick_enc hp hs]
    obtain ht | ⟨v', ht, hsound', hoperand, hleft'⟩ :=
      EncVars.fetch_advances (s := { s with pending := rest }) hs hsound g
    · refine ⟨_, ht, rfl, fun v hv => (nomatch hv), ?_, fun w m hne h => ?_⟩
      · rw [State.finish_enc_busy hs]
        rfl
      · cases w with
        | enc => exact absurd rfl hne
        | dec => exact h
    · refine ⟨_, ht, rfl, fun v hv => ?_, ?_, fun w m hne h => ?_⟩
      · cases hv
        exact ⟨hsound', by omega⟩
      · rw [State.finish_enc_busy hs, ← hoperand]
        rfl
      · cases w with
        | enc => exact absurd rfl hne
        | dec => exact h

theorem step_tick_dec_of_within (hp : s.pending = .tick .dec g :: rest) (hw : s.Within .dec (n + 1)) :
    ∃ t, step s = .next t ∧ s.Ticks .dec rest n t := by
  cases hs : s.dec with
  | none =>
    refine ⟨_, step_tick_dec_idle hp hs, rfl, fun v hv => ?_, State.finish_with_pending .., fun w m _ h => h.withEvents rest⟩
    exact (nomatch hs.symm.trans hv)
  | some v =>
    obtain ⟨hsound, hleft⟩ := hw v hs
    rw [step_tick_dec hp hs]
    obtain ht | ⟨v', ht, hsound', hbuffer, hleft'⟩ :=
      DecVars.fetch_advances (s := { s with pending := rest }) hs hsound g
    · refine ⟨_, ht, rfl, fun v hv => (nomatch hv), ?_, fun w m hne h => ?_⟩
      · rw [State.finish_dec_busy hs]
        rfl
      · cases w with
        | enc => exact h
        | dec => exact absurd rfl hne
    · refine ⟨_, ht, rfl, fun v hv => ?_, ?_, fun w m hne h => ?_⟩
      · cases hv
        exact ⟨hsound', by omega⟩
      · rw [State.finish_dec_busy hs, ← hbuffer]
        rfl
      · cases w with
        | enc => exact h
        | dec => exact absurd rfl hne

theorem step_tick_of_within (hp : s.pending = .tick u g :: rest) (hw : s.Within u (n + 1)) :
    ∃ t, step s = .next t ∧ s.Ticks u rest n t := by
  cases u with
  | enc => exact step_tick_enc_of_within hp hw
  | dec => exact step_tick_dec_of_within hp hw

end

/-! ### Runs of transfers -/

/-- Enough transfers of one unit end its operation as `finish` does, whatever the other unit holds. -/
theorem steps_ticks_of_one_unit {u : Agent} {g : Grain} {n : Nat} {s : State}
    (hp : s.pending = List.replicate n (.tick u g)) (hw : s.Within u n) :
    steps n s = .next ((s.finish u).withEvents []) := by
  induction n generalizing s with
  | zero =>
    rw [hw.finish_eq, State.withEvents_eq_self (es := []) hp]
    rfl
  | succ n ih =>
    obtain ⟨t, ht, hticks⟩ := step_tick_of_within (rest := List.replicate n (.tick u g)) hp hw
    rw [steps_next n ht, ih hticks.pending hticks.within, hticks.finish, State.withEvents_withEvents]

/-- Enough transfers of both units, in any order, end both operations as `finish` does. -/
theorem steps_ticks_of_both_units {ticks : List (Agent × Grain)} {s : State}
    (hp : s.pending = ticks.map fun x => .tick x.1 x.2)
    (hw : ∀ u, s.Within u (ticks.countP fun x => x.1 == u)) :
    steps ticks.length s = .next (((s.finish .enc).finish .dec).withEvents []) := by
  induction ticks generalizing s with
  | nil =>
    rw [(hw .enc).finish_eq, (hw .dec).finish_eq, State.withEvents_eq_self (es := []) hp]
    rfl
  | cons x ticks ih =>
    obtain ⟨u, g⟩ := x
    have hu : s.Within u (ticks.countP (fun x => x.1 == u) + 1) := by
      have := hw u
      rwa [List.countP_cons_of_pos (by simp)] at this
    obtain ⟨t, ht, hticks⟩ := step_tick_of_within hp hu
    have hwt : ∀ w, t.Within w (ticks.countP fun x => x.1 == w) := by
      intro w
      by_cases hne : w = u
      · subst hne
        exact hticks.within
      · refine hticks.other w _ hne ?_
        have := hw w
        rwa [List.countP_cons_of_neg (by simpa using Ne.symm hne)] at this
    rw [List.length_cons, steps_next _ ht, ih hticks.pending hwt, hticks.finish_both,
      State.withEvents_withEvents]

/-! ### From the beginning of an operation -/

/-- A line that leaves both ports as they are changes nothing. -/
theorem State.presentLine_held (s : State) : s.presentLine ⟨.held, .held⟩ = some s := rfl

/-- An operation that ends as soon as it has begun gives the result of the operand at the port. -/
theorem State.finish_begin_enc (s : State) :
    (s.begin .enc).finish .enc = (s.finish .enc).deliverEnc (encodeMessage s.encPort) := rfl

theorem State.finish_begin_dec (s : State) :
    (s.begin .dec).finish .dec = (s.finish .dec).deliverDec (decodeBytes s.decPort) := rfl

/-- Both units begin and end: each has one result more after that of its previous operand. -/
theorem State.finish_begin_both (s : State) :
    (((s.begin .enc).begin .dec).finish .enc).finish .dec =
      { s with
        enc := none
        dec := none
        encResults := (s.finish .enc).encResults ++ [encodeMessage s.encPort]
        decResults := (s.finish .dec).decResults ++ [decodeBytes s.decPort] } := by
  cases he : s.enc <;> cases hd : s.dec <;>
    simp [State.begin, State.finish, he, hd, State.deliverEnc, State.deliverDec, EncVars.start, DecVars.start]

/-- The first step of a run that begins an operation of unit `u` with the operands at the ports. -/
theorem step_start_held (s : State) (u : Agent) (rest : List HostEvent) :
    step (s.withEvents (.start u ⟨.held, .held⟩ :: rest)) = .next ((s.begin u).withEvents rest) := by
  rw [← State.begin_withEvents]
  exact step_start rfl (State.presentLine_held _)

/-- A unit that begins and gets enough transfers leaves what beginning and ending at once leaves. -/
theorem steps_start_ticks (s : State) (u : Agent) (g : Grain) :
    steps (transfersOf u + 1)
      (s.withEvents (.start u ⟨.held, .held⟩ :: List.replicate (transfersOf u) (.tick u g))) =
    .next (((s.begin u).finish u).withEvents []) := by
  rw [steps_next _ (step_start_held s u _), steps_ticks_of_one_unit rfl ((s.within_begin u).withEvents _),
    State.finish_withEvents, State.withEvents_withEvents]

/-- A sound unit that gets enough transfers leaves what ending its operation at once leaves. -/
theorem State.Sound.steps_ticks {s : State} (h : s.Sound) (u : Agent) (g : Grain) :
    steps (transfersOf u) (s.withEvents (List.replicate (transfersOf u) (.tick u g))) =
    .next ((s.finish u).withEvents []) := by
  rw [steps_ticks_of_one_unit rfl ((h.within u).withEvents _), State.finish_withEvents, State.withEvents_withEvents]

/-- Settles O17: a sound unit is within its bound. -/
theorem endingAtOnceIsTheRemainingTransfers : Obligations.EndingAtOnceIsTheRemainingTransfers :=
  fun _ g h => ⟨h.steps_ticks .enc g, h.steps_ticks .dec g⟩

/-- Settles O58: an ENCODE that has begun is within its bound, and ending it gives the result of the port's operand. -/
theorem serialEncodeIsEncode : Obligations.SerialEncodeIsEncode := by
  intro s g
  have hatomic : exec .encode (s.withEvents []) = .next (((s.begin .enc).finish .enc).withEvents []) := by
    rw [exec_encode, State.finish_withEvents, State.deliverEnc_withEvents, State.finish_begin_enc]
    rfl
  exact (steps_start_ticks s .enc g).trans hatomic.symm

/-- Settles O59: a DECODE that has begun is within its bound, and ending it gives the result of the port's buffer. -/
theorem serialDecodeIsDecode : Obligations.SerialDecodeIsDecode := by
  intro s g
  have hatomic : exec .decode (s.withEvents []) = .next (((s.begin .dec).finish .dec).withEvents []) := by
    rw [exec_decode, State.finish_withEvents, State.deliverDec_withEvents, State.finish_begin_dec]
    rfl
  exact (steps_start_ticks s .dec g).trans hatomic.symm

/-- Settles O60: both units are within their bounds when the transfers begin, so these end both operations. -/
theorem anyInterleavingDeliversBothResults : Obligations.AnyInterleavingDeliversBothResults := by
  intro s ticks henc hdec
  have hwithin : ∀ u, ((s.begin .enc).begin .dec).Within u (ticks.countP fun x => x.1 == u) := by
    intro u
    cases u with
    | enc =>
      have hw := (s.within_begin .enc).mono henc
      exact fun v hv => hw v (by simpa using hv)
    | dec => exact ((s.begin .enc).within_begin .dec).mono hdec
  have hrun := steps_ticks_of_both_units
    (s := ((s.begin .enc).begin .dec).withEvents (ticks.map fun x => .tick x.1 x.2)) rfl
    fun u => (hwithin u).withEvents _
  rw [State.finish_withEvents, State.finish_withEvents, State.withEvents_withEvents, State.finish_begin_both] at hrun
  refine Eq.trans (steps_next _ (step_start_held s .enc _)) (Eq.trans (steps_next _ ?_) hrun)
  exact step_start_held (s.begin .enc) .dec _

end Sys2Proof.Machine
end

section
/-! Lines that use earlier results (`30_encoding.md` section 7, `00_scope.md` section 5): what the terms of a line name,
the operation it then is, and the lines that are refused (log entry 11). -/

namespace Sys2Proof.Machine

/-! ### The value inside a result -/

section
variable {α : Type} {log : List (Result α)} {j : Nat}

theorem resultValue_of_ok {v : α} (h : log[j]? = some (.ok v)) : resultValue log j = some v := by
  simp only [resultValue, h]

theorem resultValue_eq_none (h : (∃ e, log[j]? = some (.err e)) ∨ log.length ≤ j) : resultValue log j = none := by
  obtain ⟨e, he⟩ | hj := h
  · simp only [resultValue, he]
  · simp only [resultValue, List.getElem?_eq_none hj]

theorem resultValue_append_of_length (log : List (Result α)) (v : α) :
    resultValue (log ++ [.ok v]) log.length = some v :=
  resultValue_of_ok List.getElem?_concat_length

/-- An error stays where it is when results are appended. -/
theorem getElem?_err_of_prefix {log' : List (Result α)} (hpre : log <+: log') {e : CodecError}
    (h : log[j]? = some (.err e)) : log'[j]? = some (.err e) := by
  obtain ⟨more, rfl⟩ := hpre
  rw [List.getElem?_append_left (List.getElem?_eq_some_iff.1 h).1, h]

end

section
variable {s : State} {j : Nat}

/-- What has no value has none when the units have ended their operations, if it is not the one in progress. -/
theorem resultValue_enc_finish_eq_none
    (h : (∃ e, s.encResults[j]? = some (.err e)) ∨ (s.enc = none ∧ s.encResults.length ≤ j)) :
    resultValue s.encResults j = none ∧ resultValue ((s.finish .enc).finish .dec).encResults j = none := by
  rw [State.finish_dec_encResults]
  obtain ⟨e, he⟩ | ⟨hidle, hj⟩ := h
  · exact ⟨resultValue_eq_none (.inl ⟨e, he⟩),
      resultValue_eq_none (.inl ⟨e, getElem?_err_of_prefix s.finish_enc_encResults he⟩)⟩
  · rw [State.finish_enc_idle hidle]
    exact ⟨resultValue_eq_none (.inr hj), resultValue_eq_none (.inr hj)⟩

theorem resultValue_dec_finish_eq_none
    (h : (∃ e, s.decResults[j]? = some (.err e)) ∨ (s.dec = none ∧ s.decResults.length ≤ j)) :
    resultValue s.decResults j = none ∧ resultValue ((s.finish .enc).finish .dec).decResults j = none := by
  rw [State.finish_comm, State.finish_enc_decResults]
  obtain ⟨e, he⟩ | ⟨hidle, hj⟩ := h
  · exact ⟨resultValue_eq_none (.inl ⟨e, he⟩),
      resultValue_eq_none (.inl ⟨e, getElem?_err_of_prefix s.finish_dec_decResults he⟩)⟩
  · rw [State.finish_dec_idle hidle]
    exact ⟨resultValue_eq_none (.inr hj), resultValue_eq_none (.inr hj)⟩

/-! ### A line does not look at the events -/

theorem State.bytesOf_withEvents (s : State) (es : List HostEvent) (x : BytesTerm) :
    (s.withEvents es).bytesOf x = s.bytesOf x :=
  State.bytesOf_congr x rfl rfl

theorem State.headersOf_withEvents (s : State) (es : List HostEvent) (hs : List HeaderTerm) :
    (s.withEvents es).headersOf hs = s.headersOf hs := by
  induction hs with
  | nil => rfl
  | cons h hs ih =>
    cases h with
    | entry nm val => simp only [State.headersOf, State.bytesOf_withEvents, ih]
    | headersOf j =>
      simp only [State.headersOf, ih]
      rfl

theorem State.msgOperand_withEvents (s : State) (es : List HostEvent) (x : MsgOperand) :
    (s.withEvents es).msgOperand x = s.msgOperand x := by
  cases x with
  | build hs p =>
    simp only [State.msgOperand, State.headersOf_withEvents, State.bytesOf_withEvents]
  | _ => rfl

theorem State.bufOperand_withEvents (s : State) (es : List HostEvent) (x : BufOperand) :
    (s.withEvents es).bufOperand x = s.bufOperand x := by
  cases x with
  | held => rfl
  | term t => exact s.bytesOf_withEvents es t

/-! ### A line presented, and a line refused -/

theorem State.present_of_operands {ops : Operands} {m : Message} {b : Bytes} (hm : s.msgOperand ops.msg = some m)
    (hb : s.bufOperand ops.buf = some b) : s.present ops = some { s with encPort := m, decPort := b } := by
  simp only [State.present, hm, hb]

theorem State.present_eq_none {ops : Operands} (h : s.msgOperand ops.msg = none ∨ s.bufOperand ops.buf = none) :
    s.present ops = none := by
  cases hp : s.present ops with
  | none => rfl
  | some t =>
    obtain ⟨m, b, hm, hb, -⟩ := State.present_cases hp
    rw [hm, hb] at h
    simp at h

theorem State.present_withEvents_eq_none {ops : Operands} (h : s.present ops = none) (es : List HostEvent) :
    (s.withEvents es).present ops = none := by
  cases hp : (s.withEvents es).present ops with
  | none => rfl
  | some t =>
    obtain ⟨m, b, hm, hb, -⟩ := State.present_cases hp
    rw [State.msgOperand_withEvents] at hm
    rw [State.bufOperand_withEvents] at hb
    rw [State.present_of_operands hm hb] at h
    cases h

variable {rest : List HostEvent} {code : Bytes} {ops : Operands}

/-- A line whose operands exist is its instruction on them. -/
theorem step_line {i : Instr} {m : Message} {b : Bytes} (hp : s.pending = .request code ops :: rest)
    (hcode : decode .op code = .instr i []) (hm : s.msgOperand ops.msg = some m) (hb : s.bufOperand ops.buf = some b) :
    step s = exec i { s with pending := rest, encPort := m, decPort := b } := by
  have hpresent : (s.withEvents rest).present ops = some { s with pending := rest, encPort := m, decPort := b } :=
    State.present_of_operands (by rwa [State.msgOperand_withEvents]) (by rwa [State.bufOperand_withEvents])
  have hline : (s.withEvents rest).presentLine ops = some { s with pending := rest, encPort := m, decPort := b } := by
    simp only [State.presentLine, hpresent]
  rw [step_request hp hline, runRequest_of_decode hcode]

/-- A line whose operands do not exist, not even when both units have ended their operations, is refused. -/
theorem step_line_refused (hp : s.pending = .request code ops :: rest) (hnow : s.present ops = none)
    (hend : ((s.finish .enc).finish .dec).present ops = none) : step s = .refused .noOperandValue := by
  have hline : (s.withEvents rest).presentLine ops = none := by
    simp only [State.presentLine, State.present_withEvents_eq_none hnow, State.finish_withEvents,
      State.present_withEvents_eq_none hend]
  exact step_request_refused hp hline

/-- A line whose operands do not exist yet is its instruction on them when both units have ended their operations. -/
theorem step_line_waits {i : Instr} {m : Message} {b : Bytes} (hp : s.pending = .request code ops :: rest)
    (hcode : decode .op code = .instr i []) (hnow : s.present ops = none)
    (hm : ((s.finish .enc).finish .dec).msgOperand ops.msg = some m)
    (hb : ((s.finish .enc).finish .dec).bufOperand ops.buf = some b) :
    step s = exec i { (s.finish .enc).finish .dec with pending := rest, encPort := m, decPort := b } := by
  have hpresent : (((s.finish .enc).finish .dec).withEvents rest).present ops =
      some { (s.finish .enc).finish .dec with pending := rest, encPort := m, decPort := b } :=
    State.present_of_operands (by rwa [State.msgOperand_withEvents]) (by rwa [State.bufOperand_withEvents])
  have hline : (s.withEvents rest).presentLine ops =
      some { (s.finish .enc).finish .dec with pending := rest, encPort := m, decPort := b } := by
    simp only [State.presentLine, State.present_withEvents_eq_none hnow, State.finish_withEvents, hpresent]
  rw [step_request hp hline, runRequest_of_decode hcode]

end

/-- Settles O18: the terms name values of results, a line is its operation on them, and it is refused or waits where the
value does not exist, or not yet. -/
theorem laterLineUsesAnEarlierValue : Obligations.LaterLineUsesAnEarlierValue := by
  refine ⟨fun s j b h => resultValue_of_ok h, fun s j i m e h => ⟨?_, fun he => ⟨?_, ?_⟩⟩,
    fun s x y bx b a c hx hy => ⟨?_, fun hac hc => ?_, fun hout => ?_⟩, fun s rest t b hp ht => ?_,
    fun s rest j m hp h => ?_, fun s rest j m tn tv tp nm val payload hp hn hv hpay h => ?_,
    fun s rest tn tv tp nm val payload hp hn hv hpay => ?_, fun s rest j code h hp => ?_,
    fun s rest j code h hp => ?_, fun s rest v b hp hs hout => ?_⟩
  · simp only [State.bytesOf, resultValue_of_ok h, Option.map_some]
  · simp only [State.bytesOf, State.resultEntry, resultValue_of_ok h, he, Option.map_some]
  · simp only [State.bytesOf, State.resultEntry, resultValue_of_ok h, he, Option.map_some]
  · simp only [State.bytesOf, hx, hy]
  · simp only [State.bytesOf, hx]
    exact if_pos ⟨hac, hc⟩
  · simp only [State.bytesOf, hx]
    exact if_neg (by omega)
  · exact step_line hp rfl rfl ht
  · exact step_line hp rfl (resultValue_of_ok h) rfl
  · refine step_line hp rfl ?_ rfl
    simp only [State.msgOperand, State.headersOf, hn, hv, hpay, resultValue_of_ok h, List.append_nil]
  · refine step_line hp rfl ?_ rfl
    simp only [State.msgOperand, State.headersOf, hn, hv, hpay]
  · obtain ⟨hnow, hend⟩ := resultValue_enc_finish_eq_none h
    exact step_line_refused hp (State.present_eq_none (.inr hnow)) (State.present_eq_none (.inr hend))
  · obtain ⟨hnow, hend⟩ := resultValue_dec_finish_eq_none h
    obtain hp | hp := hp
    · have hterm : ∀ t : State, resultValue t.decResults j = none → t.bufOperand (.term (.payloadOf j)) = none := by
        intro t ht
        simp only [State.bufOperand, State.bytesOf, ht, Option.map_none]
      exact step_line_refused hp (State.present_eq_none (.inr (hterm _ hnow))) (State.present_eq_none (.inr (hterm _ hend)))
    · exact step_line_refused hp (State.present_eq_none (.inl hnow)) (State.present_eq_none (.inl hend))
  · have hnow : s.present ⟨.held, .term (.encoded s.encResults.length)⟩ = none :=
      State.present_eq_none (.inr (resultValue_eq_none (.inr le_rfl)))
    have hresults : ((s.finish .enc).finish .dec).encResults = s.encResults ++ [.ok b] := by
      rw [State.finish_dec_encResults, State.finish_enc_busy hs, hout]
      rfl
    have hvalue : ((s.finish .enc).finish .dec).bufOperand (.term (.encoded s.encResults.length)) = some b := by
      simp only [State.bufOperand, State.bytesOf, hresults, resultValue_append_of_length]
    exact step_line_waits hp rfl hnow rfl hvalue

end Sys2Proof.Machine
end

section
/-! The statements about single words and reads of the wire (`30_encoding.md` sections 1 to 4, `20_memory.md` section 4). -/

namespace Sys2Proof

/-- Settles O1: each word is decoded by evaluation. -/
theorem wordsOfTheSpecDecode : Obligations.WordsOfTheSpecDecode := by
  unfold Obligations.WordsOfTheSpecDecode
  decide

/-- Settles O7: a read is the bytes from the address on, cut to its length, exactly where it ends inside the buffer. -/
theorem memReadReadsInsideTheBuffer : Obligations.MemReadReadsInsideTheBuffer := by
  refine fun b addr n => ⟨fun hin => ?_, memRead_eq_none.2⟩
  refine ⟨_, memRead_eq_some.2 ⟨hin, rfl⟩, ?_, fun i hi => ?_⟩
  · rw [List.length_take, List.length_drop]
    omega
  · rw [List.getElem?_take_of_lt hi, List.getElem?_drop]

end Sys2Proof
end
